-- ==== Sys2Proof/Word.lean ====
section
/-! DEFINITION. The bit-vector types of the block (`00_scope.md` R8, R10; `30_encoding.md` R70). -/

namespace Sys2Proof

/-- A Value, a SegmentPattern, an EEPROM byte or a shift-register content: 8 bits (R8, R65, R67). -/
abbrev Byte := BitVec 8

/-- A command word, and the result register: 32 bits (R21, R70). -/
abbrev Word := BitVec 32

/-- A digit field of a command: 4 bits, so 10 to 15 can be written in it (R71, R75). -/
abbrev Digit := BitVec 4

/-- A logical address: 16 bits, of which 13 are significant (R46, R66). -/
abbrev LogicalAddr := BitVec 16

/-- An EEPROM address, and the latched address LA: 13 bits (R29, R45). -/
abbrev CellAddr := BitVec 13

end Sys2Proof
end

