-- ==== Sys2Proof/Config.lean ====
section
/-! DEFINITION. The parameters of `00_scope.md` R9 that an implementation fixes, as plain data, and the
uninterpreted draws of R14. The spec's model takes each parameter as an argument: `Machine.State` carries
one `Config`, which no command changes (log 2). The defaults stand in `Machine/Parameters.lean`. -/

namespace Sys2Proof

/-- The level of a pin (`00_scope.md` R12). -/
inductive Level where
  | low
  | high
  deriving DecidableEq, Repr

/-- The 13 logical pins (`10_state.md` R24). -/
inductive Pin where
  | addrClk
  | addrSerLo
  | addrSerHi
  | d (i : Fin 8)
  | oeN
  | weN
  deriving DecidableEq, Repr

/-- The segments, in the order of `41_segment_encoder.md` R100. -/
inductive Segment where
  | top
  | middle
  | bottom
  | topLeft
  | topRight
  | bottomLeft
  | bottomRight
  | decimalPoint
  deriving DecidableEq, Repr

/-- SEG_BIT_ORDER: entry i is the bit of the i-th segment of R100's list. -/
structure SegBitOrder where
  bits : Vector (Fin 8) 8
  deriving DecidableEq, Repr

/-- SEG_TABLE: the ten digit patterns, "mid-bar" and "blank" (`41_segment_encoder.md` R101). -/
structure SegTable where
  digits : Vector Byte 10
  midBar : Byte
  blank : Byte
  deriving DecidableEq, Repr

/-- CLK_PULSE: the two levels of a pulse on ADDR_CLK, in order (`42_address_sequencer.md` R118, D17). -/
inductive ClkPulse where
  | highThenLow
  | lowThenHigh
  deriving DecidableEq, Repr

/-- OE_PROTOCOL: the one protocol the spec names (`43_memory_port.md` R134, D19; log 14). -/
inductive OeProtocol where
  | assertedDuringRead
  deriving DecidableEq, Repr

/-- WRITE_CYCLE_MODEL (`43_memory_port.md` R137, R138). -/
inductive WriteCycleModel where
  | ideal
  | conservative
  deriving DecidableEq, Repr

/-- Which of the two shift registers (`10_state.md` R28). -/
inductive ShiftReg where
  | lo
  | hi
  deriving DecidableEq, Repr

/-- One parallel output bit of a shift register. -/
structure StageRef where
  reg : ShiftReg
  bit : Fin 8
  deriving DecidableEq, Repr

/-- STAGE_MAP: for each EEPROM address line, the register output bit that drives it (R29, R117, D23; log 11). -/
structure StageMap where
  lines : Vector StageRef 13
  deriving DecidableEq, Repr

/-- PIN_MAP: the physical pin of each logical pin, in the order of R24's table (R24, D22; log 13). -/
structure PinMap where
  ids : Vector Nat 13
  deriving DecidableEq, Repr

/-- The parameters of `00_scope.md` R9. -/
structure Config where
  pinMap : PinMap
  segBitOrder : SegBitOrder
  segTable : SegTable
  clkPulse : ClkPulse
  oeProtocol : OeProtocol
  writeCycleModel : WriteCycleModel
  stageMap : StageMap
  imageSignBit : Nat
  deriving DecidableEq, Repr

/-- `draw(n)`: the `k`-th free value, `n` bits wide (`00_scope.md` R14). It has no body, so no proof can learn
a value of it; `State.draws` counts the draws taken, so that two draws are two different applications (log 7). -/
opaque Config.draw (n : Nat) (k : Nat) : BitVec n

end Sys2Proof
end

