-- ==== Sys2Proof/Syntax.lean ====
section
/-! DEFINITION. The ten commands, one constructor per row of `spec/opcode_table.json` (`30_encoding.md` R72). -/

namespace Sys2Proof

/-- A command with its operands as R71 and R73 give them. Every field has exactly its format's width, so every
term is within its format; a digit field may hold 10 to 15 (R75). -/
inductive Instr where
  /-- DECOMP.U `v` (`40_decomposer.md` R90). -/
  | decompU (v : Byte)
  /-- DECOMP.S `v` (R91). -/
  | decompS (v : Byte)
  /-- SEG.DIGIT `d` (`41_segment_encoder.md` R102). -/
  | segDigit (d : Digit)
  /-- SEG.SIGN `neg` (R103). -/
  | segSign (neg : Bool)
  /-- SEG.ENCODE `o, t, h, neg` (R104). -/
  | segEncode (o t h : Digit) (neg : Bool)
  /-- SEQ `addr` (`42_address_sequencer.md` R115). -/
  | seq (addr : LogicalAddr)
  /-- READ (`43_memory_port.md` R131). -/
  | read
  /-- WRITE `b` (R136). -/
  | write (b : Byte)
  /-- GET `addr` (R140). -/
  | get (addr : LogicalAddr)
  /-- SET `addr, b` (R141). -/
  | set (addr : LogicalAddr) (b : Byte)
  deriving DecidableEq, Repr

end Sys2Proof
end

