-- ==== Sys2Proof/WellFormed.lean ====
section
/-! DEFINITION. Well-formed command words, from the formats of `30_encoding.md` R71: the opcode is assigned and
every reserved bit of its format is 0. It is written from the formats alone; `Decode.lean` is written from the
match and mask of R72. A term of `Instr` needs no check of its own: its fields have their formats' widths. -/

namespace Sys2Proof

/-- The eight formats (R71). -/
inductive Format where
  | N | V | G | S | T | A | B | AB
  deriving DecidableEq, Repr

/-- The reserved bits of a format, below the opcode: a list of fields `(hi, lo)` (R71). -/
def Format.reserved : Format → List (Nat × Nat)
  | .N => [(27, 0)]
  | .V => [(27, 8)]
  | .G => [(27, 4)]
  | .S => [(27, 1)]
  | .T => [(27, 13)]
  | .A => [(27, 16)]
  | .B => [(27, 24), (15, 0)]
  | .AB => [(27, 24)]

/-- The format of each assigned opcode (R72). -/
def opcodeFormat (op : Nat) : Option Format :=
  match op with
  | 0x1 => some .V
  | 0x2 => some .V
  | 0x3 => some .G
  | 0x4 => some .S
  | 0x5 => some .T
  | 0x6 => some .A
  | 0x7 => some .N
  | 0x8 => some .B
  | 0x9 => some .A
  | 0xA => some .AB
  | _ => none

/-- Field `w[hi:lo]` as a number (R10). -/
def fieldOf (w : Word) (hi lo : Nat) : Nat := w.toNat / 2 ^ lo % 2 ^ (hi + 1 - lo)

/-- The word's opcode is assigned and its reserved bits are 0. -/
def wordWellFormed (w : Word) : Bool :=
  match opcodeFormat (fieldOf w 31 28) with
  | none => false
  | some f => f.reserved.all fun r => fieldOf w r.1 r.2 == 0

end Sys2Proof
end

