-- ==== Sys2Proof/Decode.lean ====
section
/-! DEFINITION. The decoder of `30_encoding.md` R74, by the match and mask of R72, and the encoder. -/

namespace Sys2Proof

/-- A row of the opcode map: a word selects it if `w &&& mask = pattern` (R72); `fields` builds the command from
the word's fields (R71, R73). -/
structure OpcodeRow where
  mnemonic : String
  pattern : Word
  mask : Word
  fields : Word → Instr

/-- The opcode map of R72. -/
def opcodeRows : List OpcodeRow :=
  [ ⟨"DECOMP.U", 0x10000000#32, 0xFFFFFF00#32, fun w => .decompU (w.extractLsb' 0 8)⟩,
    ⟨"DECOMP.S", 0x20000000#32, 0xFFFFFF00#32, fun w => .decompS (w.extractLsb' 0 8)⟩,
    ⟨"SEG.DIGIT", 0x30000000#32, 0xFFFFFFF0#32, fun w => .segDigit (w.extractLsb' 0 4)⟩,
    ⟨"SEG.SIGN", 0x40000000#32, 0xFFFFFFFE#32, fun w => .segSign (w.getLsbD 0)⟩,
    ⟨"SEG.ENCODE", 0x50000000#32, 0xFFFFE000#32, fun w =>
      .segEncode (w.extractLsb' 0 4) (w.extractLsb' 4 4) (w.extractLsb' 8 4) (w.getLsbD 12)⟩,
    ⟨"SEQ", 0x60000000#32, 0xFFFF0000#32, fun w => .seq (w.extractLsb' 0 16)⟩,
    ⟨"READ", 0x70000000#32, 0xFFFFFFFF#32, fun _ => .read⟩,
    ⟨"WRITE", 0x80000000#32, 0xFF00FFFF#32, fun w => .write (w.extractLsb' 16 8)⟩,
    ⟨"GET", 0x90000000#32, 0xFFFF0000#32, fun w => .get (w.extractLsb' 0 16)⟩,
    ⟨"SET", 0xA0000000#32, 0xFF000000#32, fun w => .set (w.extractLsb' 0 16) (w.extractLsb' 16 8)⟩ ]

/-- The row's test of R72. -/
def OpcodeRow.selects (r : OpcodeRow) (w : Word) : Bool := w &&& r.mask == r.pattern

/-- Why a word is illegal: the two kinds of R74. -/
inductive Illegal where
  /-- `OP` is 0x0 or 0xB to 0xF. -/
  | unassignedOpcode
  /-- A reserved bit is not 0 under a legal `OP`. -/
  | reservedBitSet
  deriving DecidableEq, Repr

/-- What decoding a word gives. -/
inductive Decoded where
  | legal (i : Instr)
  | illegal (why : Illegal)
  deriving DecidableEq, Repr

/-- Which kind of illegal word it is (R74). -/
def illegalKind (w : Word) : Illegal :=
  if (opcodeFormat (fieldOf w 31 28)).isSome then .reservedBitSet else .unassignedOpcode

/-- Decoding, total on all 2^32 words (R74). -/
def decode (w : Word) : Decoded :=
  match opcodeRows.find? fun r => r.selects w with
  | some r => .legal (r.fields w)
  | none => .illegal (illegalKind w)

/-- The command's word (R71, R72, R76): the fields at their places, every reserved bit 0. -/
def encode : Instr → Word
  | .decompU v => 0x1#4 ++ 0#20 ++ v
  | .decompS v => 0x2#4 ++ 0#20 ++ v
  | .segDigit d => 0x3#4 ++ 0#24 ++ d
  | .segSign neg => 0x4#4 ++ 0#27 ++ BitVec.ofBool neg
  | .segEncode o t h neg => 0x5#4 ++ 0#15 ++ BitVec.ofBool neg ++ h ++ t ++ o
  | .seq addr => 0x6#4 ++ 0#12 ++ addr
  | .read => 0x7#4 ++ 0#28
  | .write b => 0x8#4 ++ 0#4 ++ b ++ 0#16
  | .get addr => 0x9#4 ++ 0#12 ++ addr
  | .set addr b => 0xA#4 ++ 0#4 ++ b ++ addr

/-- The command a decoded word stands for, if it is legal. -/
def Decoded.instr? : Decoded → Option Instr
  | .legal i => some i
  | .illegal _ => none

/-- The command word whose low `nbits` bits are `w`'s and whose other bits are 0. A command is one 32-bit word,
handed over whole, so no byte order arises (R47, R70). -/
def tableWord (nbits w : Nat) : Word := BitVec.ofNat 32 (w % 2 ^ nbits)

/-- The decoder on a row of `spec/opcode_table.json`. -/
def decodeTableWord (nbits w : Nat) : Option Instr := (decode (tableWord nbits w)).instr?

end Sys2Proof
end

