-- ==== Sys2Proof/Machine/Flags.lean ====
section
/-! DEFINITION. The one flag of the block: the DigitTriple's sign, held in RES[12] (`10_state.md` R34). -/

namespace Sys2Proof.Machine

/-- `neg` of DECOMP.S: the value, read as two's complement, is below 0 (`40_decomposer.md` R91). -/
def signOf (v : Byte) : Bool := decide (v.toInt < 0)

/-- The sign flag of a packed DigitTriple (`30_encoding.md` R68). -/
def signFlag (r : Word) : Bool := r.getLsbD 12

end Sys2Proof.Machine
end

