-- ==== Sys2Proof/Machine/Memory.lean ====
section
/-! DEFINITION. The EEPROM cells: `mem[0 … 8191]`, each a byte or unknown (`10_state.md` R31, `20_memory.md` R45).
The written cells are listed with strictly rising addresses; an unlisted cell is unknown, never written (log 21). -/

namespace Sys2Proof.Machine

/-- EEPROM_SIZE (`00_scope.md` R8). -/
def eepromSize : Nat := 8192

/-- The byte of cell `a`, or `none` where it was never written. -/
def memCell (m : List Host.Cell) (a : Nat) : Option Byte :=
  match m with
  | [] => none
  | c :: rest => if c.1 = a then some c.2 else memCell rest a

/-- The cells after `mem[a] <- v` (`20_memory.md` R49). -/
def memStore (m : List Host.Cell) (a : Nat) (v : Byte) : List Host.Cell :=
  match m with
  | [] => [(a, v)]
  | c :: rest =>
    if a < c.1 then (a, v) :: c :: rest
    else if c.1 = a then (a, v) :: rest
    else c :: memStore rest a v

/-- Every address is above `low` and the addresses strictly rise. -/
def risingFrom (low : Nat) (m : List Host.Cell) : Bool :=
  match m with
  | [] => true
  | c :: rest => low ≤ c.1 && risingFrom (c.1 + 1) rest

/-- The canonical form of memory: addresses strictly rise and lie in the EEPROM. -/
def memWf (m : List Host.Cell) : Bool := risingFrom 0 m && m.all fun c => c.1 < eepromSize

end Sys2Proof.Machine
end

