-- ==== Sys2Proof/Machine/Parameters.lean ====
section
/-! DEFINITION. The default parameters of `00_scope.md` R9, and what each parameter means. -/

namespace Sys2Proof.Machine

/-- A segment's place in the list of `41_segment_encoder.md` R100. -/
def segmentIndex : Segment → Fin 8
  | .top => 0
  | .middle => 1
  | .bottom => 2
  | .topLeft => 3
  | .topRight => 4
  | .bottomLeft => 5
  | .bottomRight => 6
  | .decimalPoint => 7

/-- All segments, in the order of R100. -/
def allSegments : List Segment :=
  [.top, .middle, .bottom, .topLeft, .topRight, .bottomLeft, .bottomRight, .decimalPoint]

/-- The bit a segment has in a pattern (SEG_BIT_ORDER). -/
def segmentBit (order : SegBitOrder) (g : Segment) : Fin 8 := order.bits[segmentIndex g]

/-- The pattern that lights exactly the given segments: "active = 1" (R67). -/
def patternOf (order : SegBitOrder) (gs : List Segment) : Byte :=
  gs.foldl (fun p g => p ||| 1#8 <<< (segmentBit order g).val) 0#8

/-- The segments a pattern lights (R67, R100). -/
def litSegments (order : SegBitOrder) (p : Byte) : List Segment :=
  allSegments.filter fun g => p.getLsbD (segmentBit order g).val

/-- SEG_BIT_ORDER's default: bit i is the i-th segment (R100, D14). -/
def defaultSegBitOrder : SegBitOrder := ⟨#v[0, 1, 2, 3, 4, 5, 6, 7]⟩

/-- The shape of each digit: the segments column of `41_segment_encoder.md` R101 (D15; log 12). -/
def digitShapes : Vector (List Segment) 10 :=
  #v[ [.top, .bottom, .topLeft, .topRight, .bottomLeft, .bottomRight],
      [.topRight, .bottomRight],
      [.top, .topRight, .middle, .bottomLeft, .bottom],
      [.top, .topRight, .middle, .bottomRight, .bottom],
      [.topLeft, .topRight, .middle, .bottomRight],
      [.top, .topLeft, .middle, .bottomRight, .bottom],
      [.top, .topLeft, .middle, .bottomLeft, .bottomRight, .bottom],
      [.top, .topRight, .bottomRight],
      [.top, .middle, .bottom, .topLeft, .topRight, .bottomLeft, .bottomRight],
      [.top, .topLeft, .topRight, .middle, .bottomRight, .bottom] ]

/-- "Mid-bar" is the middle segment alone (R101, D16). -/
def midBarShape : List Segment := [.middle]

/-- "Blank" lights nothing (R101, D16). -/
def blankShape : List Segment := []

/-- SEG_TABLE's default: the byte column of R101 (D14 to D16; log 12). -/
def defaultSegTable : SegTable where
  digits := #v[0x7D, 0x50, 0x37, 0x57, 0x5A, 0x4F, 0x6F, 0x51, 0x7F, 0x5F]
  midBar := 0x02
  blank := 0x00

/-- STAGE_MAP's default: Q_LO drives address lines 0 to 7 and Q_HI[4:0] lines 8 to 12, so that
`LA = {Q_HI[4:0], Q_LO[7:0]}` (R29, R117, D23; log 11). -/
def defaultStageMap : StageMap :=
  ⟨#v[⟨.lo, 0⟩, ⟨.lo, 1⟩, ⟨.lo, 2⟩, ⟨.lo, 3⟩, ⟨.lo, 4⟩, ⟨.lo, 5⟩, ⟨.lo, 6⟩, ⟨.lo, 7⟩,
      ⟨.hi, 0⟩, ⟨.hi, 1⟩, ⟨.hi, 2⟩, ⟨.hi, 3⟩, ⟨.hi, 4⟩]⟩

/-- The output bit a stage reference names. -/
def stageBit (hi lo : Byte) (r : StageRef) : Bool :=
  match r.reg with
  | .lo => lo.getLsbD r.bit.val
  | .hi => hi.getLsbD r.bit.val

/-- The address on the EEPROM's inputs when the registers' outputs are `hi` and `lo` (R29). -/
def wiredAddr (m : StageMap) (hi lo : Byte) : CellAddr :=
  BitVec.ofFnLE fun j : Fin 13 => stageBit hi lo m.lines[j]

/-- The first level of a pulse on ADDR_CLK (R118). -/
def pulseFirst : ClkPulse → Level
  | .highThenLow => .high
  | .lowThenHigh => .low

/-- The second level of a pulse on ADDR_CLK, at which the clock rests after it (R118). -/
def pulseSecond : ClkPulse → Level
  | .highThenLow => .low
  | .lowThenHigh => .high

/-- PIN_MAP's placeholder at reset: the spec leaves it open and no rule depends on it (R24, D22; log 13). -/
def placeholderPinMap : PinMap := ⟨#v[0, 1, 2, 3, 4, 5, 6, 7, 8, 9, 10, 11, 12]⟩

/-- A pin's place in R24's table. -/
def pinIndex : Pin → Fin 13
  | .addrClk => 0
  | .addrSerLo => 1
  | .addrSerHi => 2
  | .d i => ⟨3 + i.val, by omega⟩
  | .oeN => 11
  | .weN => 12

/-- The physical pin of a logical pin (PIN_MAP, R24). -/
def physicalPin (c : Config) (p : Pin) : Nat := c.pinMap.ids[pinIndex p]

/-- The default parameters (`00_scope.md` R9). -/
def defaultConfig : Config where
  pinMap := placeholderPinMap
  segBitOrder := defaultSegBitOrder
  segTable := defaultSegTable
  clkPulse := .highThenLow
  oeProtocol := .assertedDuringRead
  writeCycleModel := .ideal
  stageMap := defaultStageMap
  imageSignBit := 15

/-- What the spec requires of parameters: the 13 pins are distinct (R24), each segment has its own bit (R100), the
ten digit patterns are distinct and the decimal point is never lit (R67, R101). -/
def configValid (c : Config) : Bool :=
  c.pinMap.ids.toList.Nodup && c.segBitOrder.bits.toList.Nodup && c.segTable.digits.toList.Nodup &&
  (c.segTable.midBar :: c.segTable.blank :: c.segTable.digits.toList).all fun p =>
    !p.getLsbD (segmentBit c.segBitOrder .decimalPoint).val

/-- `ImageAddr(sf, space, value)`: the Orchestrator's image layout, informative (`20_memory.md` R57, R58, R66;
log 27). -/
def imageAddr (c : Config) (signedFlag : Bool) (space : BitVec 2) (value : Byte) : LogicalAddr :=
  (BitVec.ofBool signedFlag).zeroExtend 16 <<< c.imageSignBit ||| space.zeroExtend 16 <<< 8 |||
    value.zeroExtend 16

end Sys2Proof.Machine
end

