-- ==== Sys2Proof/Machine/State.lean ====
section
/-! DEFINITION. The state of the block (`10_state.md`), its reset value (R36, `70_reset_and_hazards.md` R170), and
the reasons a step can stop. An unknown value of the spec is `none` (`00_scope.md` R13; log 1). -/

namespace Sys2Proof.Machine

/-- The direction of a pin (`10_state.md` R25). -/
inductive PinMode where
  | input
  | output
  deriving DecidableEq, Repr

/-- The two state fields of a pin, each possibly unknown (R25). -/
structure PinState where
  mode : Option PinMode
  drive : Option Level
  deriving DecidableEq, Repr

/-- The 13 pins (R24). -/
structure Pins where
  addrClk : PinState
  addrSerLo : PinState
  addrSerHi : PinState
  oeN : PinState
  weN : PinState
  data : Vector PinState 8
  deriving DecidableEq, Repr

/-- A pin event (R33). -/
inductive Event where
  | mode (p : Pin) (m : PinMode)
  | drive (p : Pin) (l : Level)
  | sample (p : Pin) (l : Level)
  deriving DecidableEq, Repr

/-- The fault codes of `60_exceptions.md` R151; `faultNumber` gives the number. -/
inductive FaultCode where
  | illegalCommand
  | segIndexOutOfRange
  | unknownAddressWrite
  deriving DecidableEq, Repr

/-- The field name that SegIndexOutOfRange records (`41_segment_encoder.md` R102, R104). -/
inductive DigitField where
  | d
  | ones
  | tens
  | hundreds
  deriving DecidableEq, Repr

/-- The `info` of a fault record (R151). -/
inductive FaultInfo where
  | none
  | digit (field : DigitField) (value : Digit)
  deriving DecidableEq, Repr

/-- The fault record (`10_state.md` R22). -/
structure FaultRecord where
  code : FaultCode
  pc : Nat
  word : Word
  info : FaultInfo
  deriving DecidableEq, Repr

/-- The state of the block. `config`, `program` and `draws` are the model's own fields (log 2, 3, 7). -/
structure State where
  config : Config
  program : List Word
  pc : Nat
  res : Option Word
  fault : Option FaultRecord
  wip : Bool
  pins : Pins
  srLo : Option Byte
  srHi : Option Byte
  qLo : Option Byte
  qHi : Option Byte
  la : Option CellAddr
  mem : List Host.Cell
  trace : List Event
  draws : Nat
  deriving DecidableEq, Repr

/-- Why a step stops with a fault of the model. -/
inductive Fault where
  /-- Raised by `step` in a state whose FAULT is not none: the model has no step from a faulted state
  (`60_exceptions.md` R150). Safe: nothing is claimed of what follows. -/
  | haltedAfterFault
  deriving DecidableEq, Repr

/-- Why a step has no meaning. -/
inductive Refusal where
  /-- Raised by an arm of `exec` whose instruction has no meaning yet; no arm does. Safe. -/
  | notModelled (mnemonic : String)
  /-- Raised by `step` where the command sequence has no command at `pc`: the run has ended (`60_exceptions.md`
  R169; log 4). Safe. -/
  | commandSequenceEnded
  deriving DecidableEq, Repr

/-- The pins after reset (R26, R27, R36). -/
def resetPins : Pins where
  addrClk := ⟨some .output, some .low⟩
  addrSerLo := ⟨some .output, some .low⟩
  addrSerHi := ⟨some .output, some .low⟩
  oeN := ⟨some .output, some .high⟩
  weN := ⟨some .output, some .high⟩
  data := Vector.replicate 8 ⟨some .input, none⟩

/-- The reset state under given parameters (R36, R170): no command is supplied yet (log 3). -/
def State.resetWith (c : Config) : State where
  config := c
  program := []
  pc := 0
  res := none
  fault := none
  wip := false
  pins := resetPins
  srLo := none
  srHi := none
  qLo := none
  qHi := none
  la := none
  mem := []
  trace := []
  draws := 0

/-- The block right after reset, with the default parameters of `00_scope.md` R9. -/
def State.reset : State := State.resetWith defaultConfig

end Sys2Proof.Machine
end

