-- ==== Sys2Proof/Machine/Operands.lean ====
section
/-! DEFINITION. The operand forms and the values computed from them: magnitudes and digits (`40_decomposer.md`),
patterns (`41_segment_encoder.md`), address halves (`42_address_sequencer.md`), levels and bytes. -/

namespace Sys2Proof.Machine

/-- The 8 bit positions, least significant first (R116, R132, R136). -/
def bitLines : List (Fin 8) := [0, 1, 2, 3, 4, 5, 6, 7]

/-- `lvl` of a boolean (`00_scope.md` R12). -/
def levelOf (b : Bool) : Level := if b then .high else .low

/-- 1 iff the level is High, as a byte (`43_memory_port.md` R132). -/
def levelBit : Level → Byte
  | .low => 0
  | .high => 1

/-- A DigitTriple (`00_scope.md` R15). -/
structure DigitTriple where
  ones : Digit
  tens : Digit
  hundreds : Digit
  sign : Bool
  deriving DecidableEq, Repr

/-- The magnitude DECOMP.U decomposes: `uint(v)` (R90). -/
def unsignedMagnitude (v : Byte) : Nat := v.toNat

/-- The magnitude DECOMP.S decomposes: `|sint(v)|`, a mathematical integer, so that −128 gives 128 (R91). -/
def signedMagnitude (v : Byte) : Nat := (if signOf v then -v.toInt else v.toInt).toNat

/-- `Decompose(m)` with a sign beside it (R92). -/
def decompose (m : Nat) (sign : Bool) : DigitTriple where
  ones := BitVec.ofNat 4 (m % 10)
  tens := BitVec.ofNat 4 (m / 10 % 10)
  hundreds := BitVec.ofNat 4 (m / 100 % 10)
  sign := sign

/-- `PackTriple` (R68, R93): bits 31:13 are 0. -/
def packTriple (t : DigitTriple) : Word := 0#19 ++ BitVec.ofBool t.sign ++ t.hundreds ++ t.tens ++ t.ones

/-- `SEG_TABLE[d]`, or `none` for a digit outside 0 to 9 (R102). -/
def digitPattern (c : Config) (d : Digit) : Option Byte := c.segTable.digits[d.toNat]?

/-- The sign position's pattern: mid-bar if negative, else blank (R103). -/
def signPattern (c : Config) (neg : Bool) : Byte := if neg then c.segTable.midBar else c.segTable.blank

/-- The four patterns of SEG.ENCODE, byte k for digit space k (R69). -/
def packPatterns (ones tens hundreds sign : Byte) : Word := sign ++ hundreds ++ tens ++ ones

/-- `addr & 0x1FFF`: bits 15:13 are discarded (`20_memory.md` R46). -/
def maskedAddr (addr : LogicalAddr) : CellAddr := addr.extractLsb' 0 13

/-- The low byte of the masked address (R51, R115). -/
def lowByte (a : CellAddr) : Byte := a.extractLsb' 0 8

/-- The high byte of the masked address; its bits 7:5 are 0 (R51, R115). -/
def highByte (a : CellAddr) : Byte := 0#3 ++ a.extractLsb' 8 5

/-- The EEPROM's address inputs once `addr` is sequenced, under the wiring STAGE_MAP (R29, R117). -/
def latchedAddr (c : Config) (addr : LogicalAddr) : CellAddr :=
  wiredAddr c.stageMap (highByte (maskedAddr addr)) (lowByte (maskedAddr addr))

/-- A data byte as it is read into RES: zero-extended (R131, R140). -/
def zext32 (b : Byte) : Word := 0#24 ++ b

end Sys2Proof.Machine
end

