-- ==== Sys2Proof/Machine/Ops.lean ====
section
/-! DEFINITION. The shared operations over the state: pin primitives and the trace, draws, EEPROM access, the
sequence and the transactions, completing a command, taking a fault, the command boundary and the fetch. -/

namespace Sys2Proof.Machine

/-! ### Pins and the trace (`10_state.md` R25, R33) -/

/-- The fields of one pin. -/
def Pins.pin (ps : Pins) (p : Pin) : PinState :=
  match p with
  | .addrClk => ps.addrClk
  | .addrSerLo => ps.addrSerLo
  | .addrSerHi => ps.addrSerHi
  | .d i => ps.data[i]
  | .oeN => ps.oeN
  | .weN => ps.weN

/-- Write the fields of one pin. -/
def Pins.setPin (ps : Pins) (p : Pin) (v : PinState) : Pins :=
  match p with
  | .addrClk => { ps with addrClk := v }
  | .addrSerLo => { ps with addrSerLo := v }
  | .addrSerHi => { ps with addrSerHi := v }
  | .d i => { ps with data := ps.data.set i v }
  | .oeN => { ps with oeN := v }
  | .weN => { ps with weN := v }

/-- What a pin event does to the pins: `PinMode` writes the mode and leaves the drive, `PinWrite` writes the drive,
`PinRead` changes nothing (R25). -/
def Pins.apply (ps : Pins) (e : Event) : Pins :=
  match e with
  | .mode p m => ps.setPin p { ps.pin p with mode := some m }
  | .drive p l => ps.setPin p { ps.pin p with drive := some l }
  | .sample _ _ => ps

/-- The pins after a list of pin events. -/
def Pins.replay (ps : Pins) (es : List Event) : Pins := es.foldl Pins.apply ps

/-- The level a pin puts on its wire: only while its mode is Output (R25). -/
def Pins.wire (ps : Pins) (p : Pin) : Option Level :=
  if (ps.pin p).mode = some .output then (ps.pin p).drive else none

/-- Every pin primitive acts on the pins and appends its event to the trace (R33). -/
def emit (e : Event) (s : State) : State :=
  { s with pins := s.pins.apply e, trace := s.trace ++ [e] }

/-- `PinMode(p, m)`. -/
def pinMode (p : Pin) (m : PinMode) (s : State) : State := emit (.mode p m) s

/-- `PinWrite(p, l)`. -/
def pinWrite (p : Pin) (l : Level) (s : State) : State := emit (.drive p l) s

/-- `Pulse(p, first, second)`: two writes with no delay between them (`00_scope.md` R12). -/
def pulse (p : Pin) (first second : Level) (s : State) : State := pinWrite p second (pinWrite p first s)

/-- `busdir`: the mode all eight data lines have (`10_state.md` R27; log 22). -/
def State.busdir (s : State) : Option PinMode :=
  if bitLines.all fun i => s.pins.data[i].mode == s.pins.data[0].mode then s.pins.data[0].mode else none

/-- The pin an event is about. -/
def Event.pin : Event → Pin
  | .mode p _ => p
  | .drive p _ => p
  | .sample p _ => p

/-- A trace with the physical pin numbers of PIN_MAP (R24). -/
def physicalTrace (s : State) : List (Nat × Event) := s.trace.map fun e => (physicalPin s.config e.pin, e)

/-! ### Draws (`00_scope.md` R14; log 7) -/

/-- `draw(n)`: the next free value. -/
def draw (n : Nat) (s : State) : BitVec n × State := (Config.draw n s.draws, { s with draws := s.draws + 1 })

/-! ### The EEPROM (`20_memory.md` R48, R49; `43_memory_port.md` R133) -/

/-- `MemRead(a, 1)`: the cell's byte, or a fresh draw where it was never written (R48). -/
def memRead (a : CellAddr) (s : State) : Byte × State :=
  match memCell s.mem a.toNat with
  | some v => (v, s)
  | none => draw 8 s

/-- `MemWrite(a, 1, v)` (R49). -/
def memWrite (a : CellAddr) (v : Byte) (s : State) : State := { s with mem := memStore s.mem a.toNat v }

/-- A write cycle is in progress as far as a transaction can tell: only in the conservative model (R133, R137). -/
def State.writing (s : State) : Bool := s.config.writeCycleModel == .conservative && s.wip

/-- `DeviceRead()`: the byte the EEPROM drives while OE_N is Low (R133). -/
def deviceRead (s : State) : Byte × State :=
  match s.la with
  | none => draw 8 s
  | some a => if s.writing then draw 8 s else memRead a s

/-- The level of a floating line: a draw (`60_exceptions.md` R163). -/
def floatingLevel (s : State) : Level × State :=
  let r := draw 1 s
  (levelOf (r.1.getLsbD 0), r.2)

/-- The level on data line `i` when the EEPROM would drive byte `r` (R163): an Output line shows what it is driven
to, an enabled EEPROM shows bit `i` of `r`, any other line floats. An Output line whose drive is unknown shows a
draw (log 17). -/
def lineLevel (i : Fin 8) (r : Byte) (s : State) : Level × State :=
  if (s.pins.pin (.d i)).mode = some .output then
    match (s.pins.pin (.d i)).drive with
    | some l => (l, s)
    | none => floatingLevel s
  else if s.pins.wire .oeN = some .low ∧ s.pins.wire .weN = some .high then (levelOf (r.getLsbD i.val), s)
  else floatingLevel s

/-- `PinRead(Di)` while the EEPROM would drive byte `r`: the level, sampled into the trace (R33, R163). -/
def pinRead (i : Fin 8) (r : Byte) (s : State) : Level × State :=
  let x := lineLevel i r s
  (x.1, emit (.sample (.d i) x.1) x.2)

/-! ### The sequence (`42_address_sequencer.md` R115 to R119) -/

/-- A pulse on ADDR_CLK under CLK_PULSE (R118). -/
def clockPulse (s : State) : State :=
  pulse .addrClk (pulseFirst s.config.clkPulse) (pulseSecond s.config.clkPulse) s

/-- Shift step `k`: both serial lines, then the clock (R116). -/
def shiftStep (lo hi : Byte) (s : State) (k : Fin 8) : State :=
  clockPulse (pinWrite .addrSerHi (levelOf (hi.getLsbD k.val)) (pinWrite .addrSerLo (levelOf (lo.getLsbD k.val)) s))

/-- From the first pulse until the 9th, the registers' outputs and the EEPROM's address inputs are unknown
(`60_exceptions.md` R161, R122; log 18). -/
def unlatch (s : State) : State :=
  { s with srLo := none, srHi := none, qLo := none, qHi := none, la := none }

/-- The 8 shift steps, up to the 9th pulse. -/
def shiftOut (lo hi : Byte) (s : State) : State := bitLines.foldl (shiftStep lo hi) (unlatch s)

/-- The 9th pulse: the shifted bits appear at the parallel outputs and the serial stages are unknown (R117, R30). -/
def latchPulse (lo hi : Byte) (s : State) : State :=
  let t := clockPulse s
  { t with
    qLo := some lo, qHi := some hi, la := some (wiredAddr t.config.stageMap hi lo), srLo := none, srHi := none }

/-- `Sequence(addr)` (R115). -/
def sequenceAddr (addr : LogicalAddr) (s : State) : State :=
  let a := maskedAddr addr
  latchPulse (lowByte a) (highByte a) (shiftOut (lowByte a) (highByte a) s)

/-! ### The transactions (`43_memory_port.md` R132, R135, R136, R138) -/

/-- Make all eight data lines Input or Output, in index order. -/
def setBusdir (m : PinMode) (s : State) : State := bitLines.foldl (fun t i => pinMode (.d i) m t) s

/-- Drive byte `b` on the data lines: "bit i → line i". -/
def driveByte (b : Byte) (s : State) : State :=
  bitLines.foldl (fun t i => pinWrite (.d i) (levelOf (b.getLsbD i.val)) t) s

/-- Sample line `i` into the byte read so far. -/
def sampleStep (r : Byte) (x : Byte × State) (i : Fin 8) : Byte × State :=
  let y := pinRead i r x.2
  (x.1 + levelBit y.1 <<< i.val, y.2)

/-- Sample the eight lines in index order, while the EEPROM would drive byte `r`. -/
def sampleByte (r : Byte) (s : State) : Byte × State := bitLines.foldl (sampleStep r) (0, s)

/-- `ReadTxn()` (R132), with OE_N asserted only around the samples (R134). -/
def readTxn (s : State) : Byte × State :=
  match s.config.oeProtocol with
  | .assertedDuringRead =>
    let d := deviceRead (pinWrite .oeN .low (setBusdir .input s))
    let x := sampleByte d.1 d.2
    (x.1, pinWrite .oeN .high x.2)

/-- The commit at the rising edge of WE_N, under WRITE_CYCLE_MODEL (R136, R138): in the conservative model a write
during a write cycle may be dropped, as a draw decides, and every write begins a cycle. -/
def commitByte (a : CellAddr) (b : Byte) (s : State) : State :=
  match s.config.writeCycleModel with
  | .ideal => memWrite a b s
  | .conservative =>
    if s.wip then
      let c := draw 1 s
      let t := if c.1 = 1#1 then memWrite a b c.2 else c.2
      { t with wip := true }
    else { memWrite a b s with wip := true }

/-- `WriteTxn(b)` where LA is `a` (R136). -/
def writeTxn (a : CellAddr) (b : Byte) (s : State) : State :=
  commitByte a b (pulse .weN .low .high (driveByte b (setBusdir .output s)))

/-! ### Completing a command, and taking a fault -/

/-- `RES <- v`. -/
def State.writeRes (s : State) (v : Word) : State := { s with res := some v }

/-- `pc <- pc + 1` (`10_state.md` R20). -/
def State.advance (s : State) : State := { s with pc := s.pc + 1 }

/-- The number of a fault code (R151). -/
def faultNumber : FaultCode → Nat
  | .illegalCommand => 1
  | .segIndexOutOfRange => 2
  | .unknownAddressWrite => 3

/-- `raise`: taking a fault writes `FAULT <- {code, pc, word, info}` and changes nothing else (`60_exceptions.md`
R150, R157). There is no return from a fault; only reset clears FAULT (R158). -/
def State.raise (s : State) (code : FaultCode) (word : Word) (info : FaultInfo) : State :=
  { s with fault := some ⟨code, s.pc, word, info⟩ }

/-! ### The command boundary and the command at `pc` -/

/-- The command boundary: in the conservative model, while a write cycle is in progress, a draw decides whether it
ends (R137). It stands before each command (log 8). -/
def boundary (s : State) : State :=
  if s.writing then
    let c := draw 1 s
    if c.1 = 1#1 then { c.2 with wip := false } else c.2
  else s

/-- The command word at `pc` in the controller's sequence (`10_state.md` R20; log 3). -/
def fetch (s : State) : Option Word := s.program[s.pc]?

/-- The sequence with word `w` at place `pc`; places before it that the sequence does not reach get the word 0
(log 3). -/
def placeWord (program : List Word) (pc : Nat) (w : Word) : List Word :=
  program.take pc ++ List.replicate (pc - program.length) 0#32 ++ w :: program.drop (pc + 1)

end Sys2Proof.Machine
end

