-- ==== Sys2Proof/Machine/Decomposer.lean ====
section
/-! DEFINITION. The binary-to-BCD decomposer: DECOMP.U and DECOMP.S (`40_decomposer.md`). -/

namespace Sys2Proof.Machine

/-- DECOMP.U (R90). -/
def execDecompU (v : Byte) (s : State) : Host.Outcome State Fault Refusal :=
  .next (s.writeRes (packTriple (decompose (unsignedMagnitude v) false))).advance

/-- DECOMP.S (R91). -/
def execDecompS (v : Byte) (s : State) : Host.Outcome State Fault Refusal :=
  .next (s.writeRes (packTriple (decompose (signedMagnitude v) (signOf v)))).advance

end Sys2Proof.Machine
end

