-- ==== Sys2Proof/Machine/MemoryPort.lean ====
section
/-! DEFINITION. The EEPROM memory port controller: READ, WRITE, GET and SET (`43_memory_port.md`). -/

namespace Sys2Proof.Machine

/-- READ (R131). -/
def execRead (s : State) : Host.Outcome State Fault Refusal :=
  let r := readTxn s
  .next (r.2.writeRes (zext32 r.1)).advance

/-- WRITE (R136): with no latched address it faults before any pin event (R139). -/
def execWrite (b : Byte) (s : State) : Host.Outcome State Fault Refusal :=
  match s.la with
  | none => .next (s.raise .unknownAddressWrite (encode (.write b)) .none)
  | some a => .next (writeTxn a b s).advance

/-- GET (R140). -/
def execGet (addr : LogicalAddr) (s : State) : Host.Outcome State Fault Refusal :=
  let r := readTxn (sequenceAddr addr s)
  .next (r.2.writeRes (zext32 r.1)).advance

/-- SET (R141): the sequence has latched `latchedAddr`, so LA is known at the transaction. -/
def execSet (addr : LogicalAddr) (b : Byte) (s : State) : Host.Outcome State Fault Refusal :=
  .next (writeTxn (latchedAddr s.config addr) b (sequenceAddr addr s)).advance

end Sys2Proof.Machine
end

