-- ==== Sys2Proof/Machine/SegmentEncoder.lean ====
section
/-! DEFINITION. The BCD-to-segment encoder: SEG.DIGIT, SEG.SIGN and SEG.ENCODE (`41_segment_encoder.md`). A fault's
`word` is the command's own word, `encode` of it: decoding is one-to-one (log 6). -/

namespace Sys2Proof.Machine

/-- SEG.DIGIT (R102, R153). -/
def execSegDigit (d : Digit) (s : State) : Host.Outcome State Fault Refusal :=
  match digitPattern s.config d with
  | none => .next (s.raise .segIndexOutOfRange (encode (.segDigit d)) (.digit .d d))
  | some p => .next (s.writeRes (zext32 p)).advance

/-- SEG.SIGN (R103). -/
def execSegSign (neg : Bool) (s : State) : Host.Outcome State Fault Refusal :=
  .next (s.writeRes (zext32 (signPattern s.config neg))).advance

/-- SEG.ENCODE (R104): the fields are checked in the order ones, tens, hundreds (R155). -/
def execSegEncode (o t h : Digit) (neg : Bool) (s : State) : Host.Outcome State Fault Refusal :=
  let bad (field : DigitField) (value : Digit) : Host.Outcome State Fault Refusal :=
    .next (s.raise .segIndexOutOfRange (encode (.segEncode o t h neg)) (.digit field value))
  match digitPattern s.config o with
  | none => bad .ones o
  | some p0 =>
    match digitPattern s.config t with
    | none => bad .tens t
    | some p1 =>
      match digitPattern s.config h with
      | none => bad .hundreds h
      | some p2 => .next (s.writeRes (packPatterns p0 p1 p2 (signPattern s.config neg))).advance

end Sys2Proof.Machine
end

