-- ==== Sys2Proof/Machine/Sequencer.lean ====
section
/-! DEFINITION. The EEPROM address sequencer: SEQ (`42_address_sequencer.md`). -/

namespace Sys2Proof.Machine

/-- SEQ (R115). -/
def execSeq (addr : LogicalAddr) (s : State) : Host.Outcome State Fault Refusal :=
  .next (sequenceAddr addr s).advance

end Sys2Proof.Machine
end

