-- ==== Sys2Proof/Machine/Dispatch.lean ====
section
/-! DEFINITION. One arm per command. -/

namespace Sys2Proof.Machine

def exec (i : Instr) (s : State) : Host.Outcome State Fault Refusal :=
  match i with
  | .decompU v => Sys2Proof.Machine.execDecompU v s
  | .decompS v => Sys2Proof.Machine.execDecompS v s
  | .segDigit d => Sys2Proof.Machine.execSegDigit d s
  | .segSign neg => Sys2Proof.Machine.execSegSign neg s
  | .segEncode o t h neg => Sys2Proof.Machine.execSegEncode o t h neg s
  | .seq addr => Sys2Proof.Machine.execSeq addr s
  | .read => Sys2Proof.Machine.execRead s
  | .write b => Sys2Proof.Machine.execWrite b s
  | .get addr => Sys2Proof.Machine.execGet addr s
  | .set addr b => Sys2Proof.Machine.execSet addr b s

end Sys2Proof.Machine
end

