-- ==== Sys2Proof/Machine/Step.lean ====
section
/-! DEFINITION. One step: the command boundary, the command word at `pc`, its decoding and its meaning. -/

namespace Sys2Proof.Machine

/-- One step of the block. From a faulted state there is none (`60_exceptions.md` R150); past the end of the command
sequence there is no command (R169); an illegal word raises IllegalCommand (R152); any other word runs. -/
def step (s : State) : Host.Outcome State Fault Refusal :=
  match s.fault with
  | some _ => .fault .haltedAfterFault
  | none =>
    match fetch s with
    | none => .refused .commandSequenceEnded
    | some w =>
      match decode w with
      | .illegal _ => .next ((boundary s).raise .illegalCommand w .none)
      | .legal i => exec i (boundary s)

/-- The controller puts one command word at the current place of its sequence (log 3). -/
def State.withFetchWord (s : State) (nbits w : Nat) : State :=
  { s with program := placeWord s.program s.pc (tableWord nbits w) }

end Sys2Proof.Machine
end

