-- ==== Sys2Proof/Machine/Assembler.lean ====
section
/-! DEFINITION. The assembly syntax of `30_encoding.md` R76 and the pseudo-instruction SETIMG of R77. It has no
semantic effect: it only writes command words (D7). What R76 does not say of the text is log 20. -/

namespace Sys2Proof.Machine

/-- One line's command, with its operands as the numbers written (R76, R77). -/
inductive AsmCmd where
  | decompU (v : Int)
  | decompS (v : Int)
  | segDigit (d : Int)
  | segSign (s : Int)
  | segEncode (o t h s : Int)
  | seq (addr : Int)
  | read
  | write (b : Int)
  | get (addr : Int)
  | set (addr b : Int)
  | setimg (sf space value b : Int)
  deriving DecidableEq, Repr

/-- Why a line does not assemble. -/
inductive AsmError where
  | unknownMnemonic
  | wrongOperandCount
  | badNumber
  | operandOutOfRange
  deriving DecidableEq, Repr

/-- `lo ≤ x ≤ hi`. -/
def within (lo hi x : Int) : Bool := decide (lo ≤ x) && decide (x ≤ hi)

/-- Every operand is in its range (R76; for SETIMG log 20). -/
def AsmCmd.wellFormed : AsmCmd → Bool
  | .decompU v => within 0 255 v
  | .decompS v => within (-128) 255 v
  | .segDigit d => within 0 15 d
  | .segSign s => within 0 1 s
  | .segEncode o t h s => within 0 15 o && within 0 15 t && within 0 15 h && within 0 1 s
  | .seq addr => within 0 0xFFFF addr
  | .read => true
  | .write b => within 0 255 b
  | .get addr => within 0 0xFFFF addr
  | .set addr b => within 0 0xFFFF addr && within 0 255 b
  | .setimg sf space value b => within 0 1 sf && within 0 3 space && within 0 255 value && within 0 255 b

/-- The command a line with operands in range stands for; a negative operand of DECOMP.S means `v + 256` (R76). -/
def AsmCmd.instr (c : Config) : AsmCmd → Instr
  | .decompU v => .decompU (BitVec.ofInt 8 v)
  | .decompS v => .decompS (BitVec.ofInt 8 v)
  | .segDigit d => .segDigit (BitVec.ofInt 4 d)
  | .segSign s => .segSign (s == 1)
  | .segEncode o t h s => .segEncode (BitVec.ofInt 4 o) (BitVec.ofInt 4 t) (BitVec.ofInt 4 h) (s == 1)
  | .seq addr => .seq (BitVec.ofInt 16 addr)
  | .read => .read
  | .write b => .write (BitVec.ofInt 8 b)
  | .get addr => .get (BitVec.ofInt 16 addr)
  | .set addr b => .set (BitVec.ofInt 16 addr) (BitVec.ofInt 8 b)
  | .setimg sf space value b =>
    .set (imageAddr c (sf == 1) (BitVec.ofInt 2 space) (BitVec.ofInt 8 value)) (BitVec.ofInt 8 b)

/-- "An operand out of its range is an assembly error. It is never truncated" (R76). -/
def assemble (c : Config) (a : AsmCmd) : Except AsmError Instr :=
  if a.wellFormed then .ok (a.instr c) else .error .operandOutOfRange

/-! ### The text of a line -/

/-- A blank. -/
def isBlank (ch : Char) : Bool := ch == ' ' || ch == '\t'

/-- The text without the blanks at its ends. -/
def trimBlanks (cs : List Char) : List Char := ((cs.dropWhile isBlank).reverse.dropWhile isBlank).reverse

/-- The pieces between commas. -/
def splitCommas (cs : List Char) : List (List Char) :=
  cs.foldr (fun ch pieces =>
    if ch == ',' then [] :: pieces
    else match pieces with
      | [] => [[ch]]
      | p :: rest => (ch :: p) :: rest) [[]]

/-- The value of a decimal or hexadecimal digit. -/
def digitValue (ch : Char) : Option Nat :=
  if '0' ≤ ch ∧ ch ≤ '9' then some (ch.toNat - '0'.toNat)
  else if 'a' ≤ ch ∧ ch ≤ 'f' then some (ch.toNat - 'a'.toNat + 10)
  else if 'A' ≤ ch ∧ ch ≤ 'F' then some (ch.toNat - 'A'.toNat + 10)
  else none

/-- Digits in a base, onto the number read so far. -/
def parseDigits (base : Nat) (acc : Nat) (cs : List Char) : Option Nat :=
  match cs with
  | [] => some acc
  | ch :: rest =>
    match digitValue ch with
    | some v => if v < base then parseDigits base (acc * base + v) rest else none
    | none => none

/-- A number without a sign: "decimal, or hexadecimal with `0x`" (R76). -/
def parseMagnitude (cs : List Char) : Option Nat :=
  match cs with
  | [] => none
  | ['0', 'x'] => none
  | '0' :: 'x' :: ds => parseDigits 16 0 ds
  | ds => parseDigits 10 0 ds

/-- A number, with a `-` before it if it is negative. -/
def parseNumber (cs : List Char) : Option Int :=
  match cs with
  | '-' :: rest => (parseMagnitude rest).map fun n => -(n : Int)
  | _ => (parseMagnitude cs).map fun n => (n : Int)

/-- All operands, or `none` where one is no number. -/
def parseOperands (pieces : List (List Char)) : Option (List Int) :=
  match pieces with
  | [] => some []
  | p :: rest =>
    match parseNumber (trimBlanks p), parseOperands rest with
    | some x, some xs => some (x :: xs)
    | _, _ => none

/-- How a mnemonic takes its operands (R76, R77). -/
def commandOf (mnemonic : List Char) (xs : List Int) : Except AsmError AsmCmd :=
  let wrong : Except AsmError AsmCmd := .error .wrongOperandCount
  if mnemonic = "DECOMP.U".toList then match xs with | [v] => .ok (.decompU v) | _ => wrong
  else if mnemonic = "DECOMP.S".toList then match xs with | [v] => .ok (.decompS v) | _ => wrong
  else if mnemonic = "SEG.DIGIT".toList then match xs with | [d] => .ok (.segDigit d) | _ => wrong
  else if mnemonic = "SEG.SIGN".toList then match xs with | [s] => .ok (.segSign s) | _ => wrong
  else if mnemonic = "SEG.ENCODE".toList then
    match xs with | [o, t, h, s] => .ok (.segEncode o t h s) | _ => wrong
  else if mnemonic = "SEQ".toList then match xs with | [a] => .ok (.seq a) | _ => wrong
  else if mnemonic = "READ".toList then match xs with | [] => .ok .read | _ => wrong
  else if mnemonic = "WRITE".toList then match xs with | [b] => .ok (.write b) | _ => wrong
  else if mnemonic = "GET".toList then match xs with | [a] => .ok (.get a) | _ => wrong
  else if mnemonic = "SET".toList then match xs with | [a, b] => .ok (.set a b) | _ => wrong
  else if mnemonic = "SETIMG".toList then
    match xs with | [sf, space, value, b] => .ok (.setimg sf space value b) | _ => wrong
  else .error .unknownMnemonic

/-- One line: a comment from `;` on, then the mnemonic, then its operands separated by commas (R76). A line with
nothing but blanks and a comment holds no command. -/
def parseLine (line : String) : Except AsmError (Option AsmCmd) :=
  let text := trimBlanks (line.toList.takeWhile (· ≠ ';'))
  let operands := trimBlanks (text.dropWhile fun ch => !isBlank ch)
  if text = [] then .ok none
  else match parseOperands (if operands = [] then [] else splitCommas operands) with
    | none => .error .badNumber
    | some xs => (commandOf (text.takeWhile fun ch => !isBlank ch) xs).map some

/-- The words of a text, "one command per line" (R76). -/
def assembleText (c : Config) (lines : List String) : Except AsmError (List Word) :=
  match lines with
  | [] => .ok []
  | line :: rest =>
    match parseLine line with
    | .error e => .error e
    | .ok none => assembleText c rest
    | .ok (some a) =>
      match assemble c a with
      | .error e => .error e
      | .ok i => (assembleText c rest).map fun ws => encode i :: ws

end Sys2Proof.Machine
end

