-- ==== Sys2Proof/Machine/Boot.lean ====
section
/-! DEFINITION. What the environment does to the pins before the first command (`70_reset_and_hazards.md` R173). It is
no command; a run starts from the reset state, which is what it establishes (log 16). -/

namespace Sys2Proof.Machine

/-- The boot order of R173: WE_N, then OE_N, then the clock and the serial lines, then the data lines. Each control
pin is driven before it is made Output. -/
def bootEvents : List Event :=
  [ .drive .weN .high, .mode .weN .output,
    .drive .oeN .high, .mode .oeN .output,
    .drive .addrClk .low, .mode .addrClk .output,
    .drive .addrSerLo .low, .mode .addrSerLo .output,
    .drive .addrSerHi .low, .mode .addrSerHi .output ] ++
  bitLines.map fun i => .mode (.d i) .input

/-- The pins at power-up: nothing is configured yet (R173). -/
def powerUpPins : Pins where
  addrClk := ⟨none, none⟩
  addrSerLo := ⟨none, none⟩
  addrSerHi := ⟨none, none⟩
  oeN := ⟨none, none⟩
  weN := ⟨none, none⟩
  data := Vector.replicate 8 ⟨none, none⟩

/-- The block at power-up: as after reset, but for the pins. -/
def State.powerUp (c : Config) : State := { State.resetWith c with pins := powerUpPins }

/-- The boot: the environment's pin writes. The trace starts at reset, so they leave no event in it (R33, R170). -/
def State.boot (s : State) : State := { s with pins := s.pins.replay bootEvents }

end Sys2Proof.Machine
end

