-- ==== Sys2Proof/Safety.lean ====
section
/-! DEFINITION. The terms claims use: the invariant of the block, the events each command makes, safe use of the
pins along a trace, and how a run ends. -/

namespace Sys2Proof.Machine

/-! ### Events of the commands, written from the rules' own order -/

/-- The two events of a pulse on ADDR_CLK (`42_address_sequencer.md` R118). -/
def clockEvents (c : Config) : List Event :=
  [.drive .addrClk (pulseFirst c.clkPulse), .drive .addrClk (pulseSecond c.clkPulse)]

/-- The four events of shift step `k` (R116, R119). -/
def shiftEvents (c : Config) (lo hi : Byte) (k : Fin 8) : List Event :=
  [.drive .addrSerLo (levelOf (lo.getLsbD k.val)), .drive .addrSerHi (levelOf (hi.getLsbD k.val))] ++ clockEvents c

/-- The 34 events of a sequence (R119). -/
def sequenceEvents (c : Config) (addr : LogicalAddr) : List Event :=
  let a := maskedAddr addr
  bitLines.flatMap (shiftEvents c (lowByte a) (highByte a)) ++ clockEvents c

/-- The 18 events of a read transaction whose eight samples show the levels `ls` (`43_memory_port.md` R132). -/
def sampledEvents (ls : List Level) : List Event :=
  bitLines.map (fun i => .mode (.d i) .input) ++ [.drive .oeN .low] ++
  List.zipWith (fun i l => .sample (.d i) l) bitLines ls ++ [.drive .oeN .high]

/-- The 18 events of a read transaction that samples byte `r`, bit i on line i (R132). -/
def readEvents (r : Byte) : List Event := sampledEvents (bitLines.map fun i => levelOf (r.getLsbD i.val))

/-- The 18 events of a write transaction of byte `b` (R136). -/
def writeEvents (b : Byte) : List Event :=
  bitLines.map (fun i => .mode (.d i) .output) ++ bitLines.map (fun i => .drive (.d i) (levelOf (b.getLsbD i.val))) ++
  [.drive .weN .low, .drive .weN .high]

/-- How many pin events a completed command makes (`70_reset_and_hazards.md` R181). -/
def eventCount : Instr → Nat
  | .decompU _ => 0
  | .decompS _ => 0
  | .segDigit _ => 0
  | .segSign _ => 0
  | .segEncode _ _ _ _ => 0
  | .seq _ => 34
  | .read => 18
  | .write _ => 18
  | .get _ => 52
  | .set _ _ => 52

/-! ### What the transactions leave -/

/-- The byte a read transaction at latched address `l` gets: the cell's byte, or a free value where no address is
latched, a write cycle is in progress, or the cell was never written (R48, R133). The statements hold for every
value of it. -/
def byteAt (s : State) (l : Option CellAddr) : Byte :=
  match l.bind fun a => if s.config.writeCycleModel = .conservative ∧ s.wip = true then none
    else memCell s.mem a.toNat with
  | some v => v
  | none => Config.draw 8 s.draws

/-- How many draws it takes: one for a free value, none for a known byte. -/
def drawsAt (s : State) (l : Option CellAddr) : Nat :=
  match l.bind fun a => if s.config.writeCycleModel = .conservative ∧ s.wip = true then none
    else memCell s.mem a.toNat with
  | some _ => 0
  | none => 1

/-- The data lines as Inputs with their drives unchanged, and OE_N left High (R132, R134). -/
def pinsAfterRead (ps : Pins) : Pins :=
  { ps with data := ps.data.map (fun p => ⟨some .input, p.drive⟩), oeN := ⟨ps.oeN.mode, some .high⟩ }

/-- The data lines as Outputs driven to byte `b`, and WE_N left High (R135, R136). -/
def pinsAfterWrite (ps : Pins) (b : Byte) : Pins :=
  { ps with
    data := Vector.ofFn fun i : Fin 8 => ⟨some .output, some (if b.getLsbD i then .high else .low)⟩
    weN := ⟨ps.weN.mode, some .high⟩ }

/-! ### The invariant of the block at command boundaries -/

/-- The byte the data lines are driven to, where all eight are Output and driven (`60_exceptions.md` R162). -/
def busByte (ps : Pins) (b : Byte) : Prop :=
  ∀ i : Fin 8, ps.wire (.d i) = some (levelOf (b.getLsbD i.val))

/-- The control pins between commands (`10_state.md` R26): all Output, OE_N and WE_N High, ADDR_CLK and the serial
lines driven, ADDR_SER_HI Low (`42_address_sequencer.md` R119), ADDR_CLK Low under the default CLK_PULSE. -/
structure ControlPinsAtRest (s : State) : Prop where
  clkMode : s.pins.addrClk.mode = some .output
  clkDriven : s.pins.addrClk.drive ≠ none
  clkLow : s.config.clkPulse = .highThenLow → s.pins.addrClk.drive = some .low
  serLoMode : s.pins.addrSerLo.mode = some .output
  serLoDriven : s.pins.addrSerLo.drive ≠ none
  serHi : s.pins.addrSerHi = ⟨some .output, some .low⟩
  oeN : s.pins.oeN = ⟨some .output, some .high⟩
  weN : s.pins.weN = ⟨some .output, some .high⟩

/-- The data bus between commands (R27): all lines Input, or all Output and driven to one byte. -/
def BusAtRest (s : State) : Prop :=
  (∀ i : Fin 8, (s.pins.pin (.d i)).mode = some .input) ∨ ∃ b, busByte s.pins b

/-- The latch between commands: nothing latched yet, or LA is what the wiring makes of the register outputs, whose
bits Q_HI[7:5] are 0 (R28, R29, R115). -/
def LatchConsistent (s : State) : Prop :=
  (s.qLo = none ∧ s.qHi = none ∧ s.la = none) ∨
  ∃ a : CellAddr, s.qLo = some (lowByte a) ∧ s.qHi = some (highByte a) ∧
    s.la = some (wiredAddr s.config.stageMap (highByte a) (lowByte a))

/-- What holds at every command boundary. -/
structure Inv (s : State) : Prop where
  /-- The EEPROM's cells are in canonical form, and lie in it (`20_memory.md` R45). -/
  mem : memWf s.mem = true
  /-- `10_state.md` R26. -/
  control : ControlPinsAtRest s
  /-- `10_state.md` R27. -/
  bus : BusAtRest s
  /-- `10_state.md` R28, R29. -/
  latch : LatchConsistent s
  /-- The serial stages are unknown between commands (R30). -/
  stages : s.srLo = none ∧ s.srHi = none
  /-- In the ideal model WIP is always 0 (R23, R137). -/
  wipIdeal : s.config.writeCycleModel = .ideal → s.wip = false
  /-- No cell is written, and no write cycle runs, before an address is latched (R130, R139). -/
  unlatched : s.la = none → s.mem = [] ∧ s.wip = false
  /-- `pc` is a place of the sequence or its end (R20, `60_exceptions.md` R169). -/
  pcInSequence : s.pc ≤ s.program.length
  /-- A fault record names the command at `pc` (R150). -/
  record : ∀ r, s.fault = some r → r.pc = s.pc ∧ fetch s = some r.word

/-! ### Safe use of the pins (`20_memory.md` R60, `43_memory_port.md` R134, `60_exceptions.md` R164) -/

/-- OE_N and WE_N are not Low together, and no data line is Output while OE_N is Low (R164). -/
def busSafe (ps : Pins) : Bool :=
  !(ps.wire .oeN == some .low && ps.wire .weN == some .low) &&
  !(ps.wire .oeN == some .low && bitLines.any fun i => (ps.pin (.d i)).mode == some .output)

/-- All eight data lines are driven. -/
def busDriven (ps : Pins) : Bool := bitLines.all fun i => (ps.wire (.d i)).isSome

/-- Along the events, from pins `ps`: the bus is safe after each event; while WE_N is Low the next event is the one
that drives it High, so neither the address lines nor the data lines change during a write pulse; and WE_N falls
only once all data lines are driven (R60, R164, R175). -/
def orderly (ps : Pins) (es : List Event) : Bool :=
  match es with
  | [] => ps.wire .weN != some .low
  | e :: rest =>
    (ps.wire .weN != some .low || e == .drive .weN .high) &&
    (e != .drive .weN .low || busDriven ps) &&
    busSafe (ps.apply e) && orderly (ps.apply e) rest

/-- The three pins that only a sequence drives: the clock and the serial lines (R24, R119). -/
def addressPin : Pin → Bool
  | .addrClk => true
  | .addrSerLo => true
  | .addrSerHi => true
  | .d _ => false
  | .oeN => false
  | .weN => false

/-! ### The end of a run (`60_exceptions.md` R169) -/

/-- A run has ended successfully: every command is done and there is no fault. -/
def endedWell (s : State) : Bool := s.pc == s.program.length && s.fault == none

/-- A run has ended in a fault. -/
def endedInFault (s : State) : Bool := s.fault.isSome

/-- The reset state with the controller's command sequence supplied (R169). -/
def startRun (c : Config) (program : List Word) : State := { State.resetWith c with program := program }

end Sys2Proof.Machine
end

