-- ==== Sys2Proof/Certificates/Slice0/Obligations.lean ====
section
/-! DEFINITION. The statements for the provers. A next state written `{ s with … }` names every field that changes:
every other field is as it was. Rules are of spec/; "log n" is `notes/assumptions/<n>.md`. -/

open Sys2Proof Sys2Proof.Machine

/-! ### Encoding (`30_encoding.md`) -/

/-- Decoding a command's word gives the command back, with every operand at every value (section 2 of
`30_encoding.md`, the formats and the decoder; the command word is the spec's own choice, D4 to D6). -/
def Obligations.DecodeOfEncodedCommand : Prop :=
  ∀ i : Instr, decode (encode i) = .legal i

/-- A legal word is the word of the command it decodes to: no bit of it is dropped, and no two words spell one
command (section 2 of `30_encoding.md`; D4 to D6). -/
def Obligations.EncodeOfDecodedWord : Prop :=
  ∀ (w : Word) (i : Instr), decode w = .legal i → encode i = w

/-- The decoder, written from match and mask, accepts exactly the words that the formats allow: an assigned opcode
and every reserved bit 0; and it says which of the two kinds of illegal word any other one is (section 2 of
`30_encoding.md`, formats, opcode map and decoder; D4 to D6). -/
def Obligations.DecoderAcceptsExactlyTheFormats : Prop :=
  ∀ w : Word,
    (wordWellFormed w = true ↔ ∃ i, decode w = .legal i) ∧
    (decode w = .illegal .unassignedOpcode ↔
      fieldOf w 31 28 = 0 ∨ 0xB ≤ fieldOf w 31 28) ∧
    (decode w = .illegal .reservedBitSet ↔
      wordWellFormed w = false ∧ 1 ≤ fieldOf w 31 28 ∧ fieldOf w 31 28 ≤ 0xA)

/-- No word selects two rows of the opcode map (section 2 of `30_encoding.md`; D5, D6). -/
def Obligations.OpcodeRowsDoNotOverlap : Prop :=
  ∀ w : Word, ∀ r ∈ opcodeRows, ∀ q ∈ opcodeRows,
    r.selects w = true → q.selects w = true → r.mnemonic = q.mnemonic

/-- Words that the spec's rules and vectors write out decode to the command they stand for (sanity). -/
def Obligations.WordsOfTheSpecDecode : Prop :=
  decode 0x100000FF#32 = .legal (.decompU 255#8) ∧
  decode 0x200000FB#32 = .legal (.decompS 251#8) ∧
  decode 0x30000005#32 = .legal (.segDigit 5#4) ∧
  decode 0x40000001#32 = .legal (.segSign true) ∧
  decode 0x50001128#32 = .legal (.segEncode 8#4 2#4 1#4 true) ∧
  decode 0x60009FFF#32 = .legal (.seq 0x9FFF#16) ∧
  decode 0x70000000#32 = .legal .read ∧
  decode 0x807D0000#32 = .legal (.write 0x7D#8) ∧
  decode 0x90001FFF#32 = .legal (.get 0x1FFF#16) ∧
  decode 0xA0AB1FFF#32 = .legal (.set 0x1FFF#16 0xAB#8) ∧
  decode 0x00000000#32 = .illegal .unassignedOpcode ∧
  decode 0xFFFFFFFF#32 = .illegal .unassignedOpcode ∧
  decode 0x70000001#32 = .illegal .reservedBitSet

/-- The word of each form of assembly as a number, from the table of section 3 of `30_encoding.md`. -/
def asmWord (c : Config) : AsmCmd → Int
  | .decompU v => 0x10000000 + v
  | .decompS v => 0x20000000 + v % 256
  | .segDigit d => 0x30000000 + d
  | .segSign s => 0x40000000 + s
  | .segEncode o t h s => 0x50000000 + 4096 * s + 256 * h + 16 * t + o
  | .seq addr => 0x60000000 + addr
  | .read => 0x70000000
  | .write b => 0x80000000 + 65536 * b
  | .get addr => 0x90000000 + addr
  | .set addr b => 0xA0000000 + 65536 * b + addr
  | .setimg sf space value b =>
    0xA0000000 + 65536 * b + (imageAddr c (sf == 1) (BitVec.ofInt 2 space) (BitVec.ofInt 8 value)).toNat

/-- A line whose operands are in range assembles to the word of its form; any other is an assembly error and is
never truncated (section 3 of `30_encoding.md`; D7; SETIMG's ranges are the model's choice, log 20). -/
def Obligations.AssemblerWritesTheFormsWord : Prop :=
  ∀ (c : Config) (a : AsmCmd),
    (a.wellFormed = true → ∃ i, assemble c a = .ok i ∧ ((encode i).toNat : Int) = asmWord c a) ∧
    (a.wellFormed = false → assemble c a = .error .operandOutOfRange)

/-! ### The step -/

/-- A step runs the command that the word at `pc` decodes to, after the command boundary (`10_state.md` section 1;
the place of the boundary is the model's choice, log 8). -/
def Obligations.StepRunsTheDecodedCommand : Prop :=
  ∀ (s : State) (w : Word) (i : Instr), s.fault = none → fetch s = some w → decode w = .legal i →
    step s = exec i (boundary s)

/-- A word placed at `pc` is the word the next step fetches (the model's own load, log 3). -/
def Obligations.PlacedWordIsFetched : Prop :=
  ∀ (s : State) (w : Word), fetch (s.withFetchWord 32 w.toNat) = some w

/-- An illegal word raises IllegalCommand, with the `pc` and the word, and changes nothing else after the boundary
(sections 1 and 2 of `60_exceptions.md` and section 2 of `30_encoding.md`; D6, D9). The boundary stands before the
decoding, where it may clear WIP and take a draw: that is the model's choice, log 8. -/
def Obligations.IllegalWordRaisesIllegalCommand : Prop :=
  ∀ (s : State) (w : Word), s.fault = none → fetch s = some w → wordWellFormed w = false →
    step s = .next { boundary s with fault := some ⟨.illegalCommand, s.pc, w, .none⟩ }

/-- A step has a next state exactly where there is no fault and a command is left; from a faulted state there is no
step, and past the end of the sequence there is no command: no command of the table is ever refused (section 1 of
`60_exceptions.md`, D9; that the end of the sequence is a refusal is the model's choice, log 4). -/
def Obligations.StepStopsOnlyAfterFaultOrAtTheEnd : Prop :=
  ∀ s : State,
    ((∃ t, step s = .next t) ↔ s.fault = none ∧ s.pc < s.program.length) ∧
    (s.fault ≠ none → step s = .fault .haltedAfterFault) ∧
    (s.fault = none → s.program.length ≤ s.pc → step s = .refused .commandSequenceEnded)

/-- The command boundary of the conservative model: while a write cycle is in progress a draw decides whether it
ends; otherwise the boundary does nothing. Which value of the draw ends it, and where the boundary stands, are the
model's choice (section 2 of `43_memory_port.md`, D21; log 8). -/
def Obligations.BoundaryMayEndTheWriteCycle : Prop :=
  ∀ s : State,
    (s.config.writeCycleModel = .ideal → boundary s = s) ∧
    (s.wip = false → boundary s = s) ∧
    (s.config.writeCycleModel = .conservative → s.wip = true →
      boundary s = { s with wip := decide (Config.draw 1 s.draws ≠ 1#1), draws := s.draws + 1 })

/-! ### The decomposer (`40_decomposer.md`) -/

/-- R92: the three digits of a magnitude of at most 255. -/
def Obligations.DecomposeGivesDecimalDigits : Prop :=
  ∀ (m : Nat) (sign : Bool), m ≤ 255 →
    let t := decompose m sign
    t.ones.toNat = m % 10 ∧ t.tens.toNat = m / 10 % 10 ∧ t.hundreds.toNat = m / 100 % 10 ∧
    t.ones.toNat ≤ 9 ∧ t.tens.toNat ≤ 9 ∧ t.hundreds.toNat ≤ 2 ∧ (m ≤ 128 → t.hundreds.toNat ≤ 1) ∧
    t.ones.toNat + 10 * t.tens.toNat + 100 * t.hundreds.toNat = m

/-- R90: DECOMP.U, its word and its effect. Bit 12, the sign, and bits 31:13 of the result are 0. -/
def Obligations.DecompUPacksTheUnsignedDigits : Prop :=
  ∀ (v : Byte) (s : State),
    decode (BitVec.ofNat 32 (0x10000000 + v.toNat)) = .legal (.decompU v) ∧
    exec (.decompU v) s = .next { s with
      res := some (BitVec.ofNat 32 (v.toNat % 10 + 16 * (v.toNat / 10 % 10) + 256 * (v.toNat / 100 % 10)))
      pc := s.pc + 1 }

/-- R91: DECOMP.S, its word and its effect. The magnitude of 0x80 is 128; bit 12 is the sign. -/
def Obligations.DecompSPacksTheSignedDigits : Prop :=
  ∀ (v : Byte) (s : State),
    let m := if v.toNat < 128 then v.toNat else 256 - v.toNat
    decode (BitVec.ofNat 32 (0x20000000 + v.toNat)) = .legal (.decompS v) ∧
    exec (.decompS v) s = .next { s with
      res := some (BitVec.ofNat 32
        (m % 10 + 16 * (m / 10 % 10) + 256 * (m / 100 % 10) + (if v.toNat < 128 then 0 else 4096)))
      pc := s.pc + 1 }

/-- The laws of section 3 of `40_decomposer.md` (the spec derives them from its rules): the digits in RES add up to
the magnitude, RES[12] is the sign, and the two commands agree exactly on values without bit 7. -/
def Obligations.DecomposedDigitsAddUp : Prop :=
  ∀ (v : Byte) (s : State), ∃ t u r q,
    exec (.decompU v) s = .next t ∧ t.res = some r ∧ exec (.decompS v) s = .next u ∧ u.res = some q ∧
    fieldOf r 3 0 + 10 * fieldOf r 7 4 + 100 * fieldOf r 11 8 = v.toNat ∧ signFlag r = false ∧
    fieldOf q 3 0 + 10 * fieldOf q 7 4 + 100 * fieldOf q 11 8 = v.toInt.natAbs ∧
    (signFlag q = true ↔ v.toInt < 0) ∧ (r = q ↔ v.toNat < 128)

/-! ### The segment encoder (`41_segment_encoder.md`) -/

/-- SEG.DIGIT on a digit 0 to 9: RES is the table's byte, zero-extended (section 2 of `41_segment_encoder.md`). -/
def Obligations.SegDigitLooksUpTheTable : Prop :=
  ∀ (d : Digit) (s : State) (h : d.toNat < 10),
    exec (.segDigit d) s = .next { s with
      res := some (BitVec.ofNat 32 s.config.segTable.digits[d.toNat].toNat), pc := s.pc + 1 }

/-- SEG.DIGIT on 10 to 15 takes the fault SegIndexOutOfRange, with its word and the digit, and changes nothing else
(sections 2 of `41_segment_encoder.md` and 1 of `60_exceptions.md`; D8). -/
def Obligations.SegDigitOutOfRangeFaults : Prop :=
  ∀ (d : Digit) (s : State), 9 < d.toNat →
    exec (.segDigit d) s = .next { s with
      fault := some ⟨.segIndexOutOfRange, s.pc, BitVec.ofNat 32 (0x30000000 + d.toNat), .digit .d d⟩ }

/-- R103: SEG.SIGN, its word and its effect. -/
def Obligations.SegSignSelectsMidBarOrBlank : Prop :=
  ∀ (neg : Bool) (s : State),
    decode (if neg then 0x40000001#32 else 0x40000000#32) = .legal (.segSign neg) ∧
    exec (.segSign neg) s = .next { s with
      res := some (BitVec.ofNat 32
        (if neg then s.config.segTable.midBar.toNat else s.config.segTable.blank.toNat))
      pc := s.pc + 1 }

/-- SEG.ENCODE on digits 0 to 9: byte k of RES is the pattern of digit space k; leading zeros are not blanked
(section 2 of `41_segment_encoder.md`). -/
def Obligations.SegEncodePacksFourPatterns : Prop :=
  ∀ (o t h : Digit) (neg : Bool) (s : State) (ho : o.toNat < 10) (ht : t.toNat < 10) (hh : h.toNat < 10),
    exec (.segEncode o t h neg) s = .next { s with
      res := some (BitVec.ofNat 32
        (s.config.segTable.digits[o.toNat].toNat + 2 ^ 8 * s.config.segTable.digits[t.toNat].toNat +
          2 ^ 16 * s.config.segTable.digits[h.toNat].toNat +
          2 ^ 24 * (if neg then s.config.segTable.midBar.toNat else s.config.segTable.blank.toNat)))
      pc := s.pc + 1 }

/-- SEG.ENCODE with a digit of 10 to 15 takes SegIndexOutOfRange and changes nothing else; the first bad field, in the
order ones, tens, hundreds, is the one recorded (sections 2 of `41_segment_encoder.md` and 1 of
`60_exceptions.md`; D8, D9). -/
def Obligations.SegEncodeRecordsTheFirstBadDigit : Prop :=
  ∀ (o t h : Digit) (neg : Bool) (s : State),
    let w := BitVec.ofNat 32 (0x50000000 + (if neg then 4096 else 0) + 256 * h.toNat + 16 * t.toNat + o.toNat)
    let raised (f : DigitField) (d : Digit) : State :=
      { s with fault := some ⟨.segIndexOutOfRange, s.pc, w, .digit f d⟩ }
    (9 < o.toNat → exec (.segEncode o t h neg) s = .next (raised .ones o)) ∧
    (o.toNat ≤ 9 → 9 < t.toNat → exec (.segEncode o t h neg) s = .next (raised .tens t)) ∧
    (o.toNat ≤ 9 → t.toNat ≤ 9 → 9 < h.toNat → exec (.segEncode o t h neg) s = .next (raised .hundreds h))

/-- SEG.ENCODE agrees with the single lookups, byte by byte (section 3 of `41_segment_encoder.md`; the spec derives
it). -/
def Obligations.SegEncodeAgreesWithSingleLookups : Prop :=
  ∀ (o t h : Digit) (neg : Bool) (s : State), o.toNat ≤ 9 → t.toNat ≤ 9 → h.toNat ≤ 9 →
    ∃ e p0 p1 p2 p3 r r0 r1 r2 r3,
      exec (.segEncode o t h neg) s = .next e ∧ e.res = some r ∧
      exec (.segDigit o) s = .next p0 ∧ p0.res = some r0 ∧
      exec (.segDigit t) s = .next p1 ∧ p1.res = some r1 ∧
      exec (.segDigit h) s = .next p2 ∧ p2.res = some r2 ∧
      exec (.segSign neg) s = .next p3 ∧ p3.res = some r3 ∧
      fieldOf r 7 0 = r0.toNat ∧ fieldOf r 15 8 = r1.toNat ∧ fieldOf r 23 16 = r2.toNat ∧
      fieldOf r 31 24 = r3.toNat

/-- Every triple that a DECOMP produces, put into a SEG.ENCODE word as `0x5000_0000 | RES[12:0]`, is that triple's
SEG.ENCODE, with the digits and the sign that RES holds, and encodes without a fault (section 2 of
`41_segment_encoder.md`; section 2 of `95_test_vectors.md`). -/
def Obligations.DecomposedTriplesEncode : Prop :=
  ∀ (v : Byte) (i : Instr) (s : State), (i = .decompU v ∨ i = .decompS v) →
    ∃ t r j u, exec i s = .next t ∧ t.res = some r ∧
      j = .segEncode (r.extractLsb' 0 4) (r.extractLsb' 4 4) (r.extractLsb' 8 4) (signFlag r) ∧
      decode (0x50000000#32 ||| r) = .legal j ∧
      exec j t = .next u ∧ u.fault = s.fault ∧ u.pc = s.pc + 2

/-! ### The address sequencer (`42_address_sequencer.md`) -/

/-- R115: SEQ, its word and its effect, under the wiring the spec assumes (STAGE_MAP's default, R117) and the default
CLK_PULSE: the outputs and LA hold the masked address, the serial stages are unknown, the serial lines rest at their
last bits and the clock Low; RES, the cells, the data lines, OE_N and WE_N are unchanged. -/
def Obligations.SeqLatchesTheMaskedAddress : Prop :=
  ∀ (addr : LogicalAddr) (s : State),
    s.config.stageMap = defaultStageMap → s.config.clkPulse = .highThenLow →
    decode (BitVec.ofNat 32 (0x60000000 + addr.toNat)) = .legal (.seq addr) ∧
    exec (.seq addr) s = .next { s with
      qLo := some (BitVec.ofNat 8 (addr.toNat % 0x2000))
      qHi := some (BitVec.ofNat 8 (addr.toNat % 0x2000 / 256))
      la := some (BitVec.ofNat 13 (addr.toNat % 0x2000))
      srLo := none, srHi := none
      pins := { s.pins with
        addrSerLo := ⟨s.pins.addrSerLo.mode, some (if addr.getLsbD 7 then .high else .low)⟩
        addrSerHi := ⟨s.pins.addrSerHi.mode, some .low⟩
        addrClk := ⟨s.pins.addrClk.mode, some .low⟩ }
      trace := s.trace ++
        ([0, 1, 2, 3, 4, 5, 6, 7].flatMap fun k : Nat =>
          [.drive .addrSerLo (if addr.getLsbD k then .high else .low),
           .drive .addrSerHi (if k < 5 && addr.getLsbD (8 + k) then .high else .low),
           .drive .addrClk .high, .drive .addrClk .low]) ++
        [.drive .addrClk .high, .drive .addrClk .low]
      pc := s.pc + 1 }

/-- SEQ under every wiring and every CLK_PULSE: the register outputs hold the two bytes and LA is what STAGE_MAP makes
of them (section 3 of `10_state.md`, section 2 of `42_address_sequencer.md`; D17, D23). What CLK_PULSE = Low then High
does, the latch and the level ADDR_CLK rests at, is the model's choice, log 10; that STAGE_MAP is a table from address
lines to output bits is the model's choice, log 11. -/
def Obligations.SeqLatchesThroughTheWiring : Prop :=
  ∀ (addr : LogicalAddr) (s : State), ∃ t lo hi, exec (.seq addr) s = .next t ∧
    lo.toNat = addr.toNat % 256 ∧ hi.toNat = addr.toNat % 0x2000 / 256 ∧
    t.qLo = some lo ∧ t.qHi = some hi ∧ t.la = some (wiredAddr s.config.stageMap hi lo) ∧
    t.pins.addrClk.drive = some (pulseSecond s.config.clkPulse) ∧ t.pins.oeN = s.pins.oeN ∧
    t.pins.weN = s.pins.weN ∧ t.pins.data = s.pins.data ∧ t.trace.length = s.trace.length + 34 ∧
    t = { s with
      qLo := t.qLo, qHi := t.qHi, la := t.la, srLo := none, srHi := none, pins := t.pins, trace := t.trace
      pc := s.pc + 1 }

/-- Masking law: addresses that differ only in bits 15:13 have one and the same effect in SEQ, GET and SET (section 3
of `42_address_sequencer.md`, section 1 of `20_memory.md`). The spec derives it for SEQ. In GET, and in SET during a
write cycle, it is for the same draws: that equal draw counts give equal draws is the model's choice, log 7. -/
def Obligations.AddressBitsAbove12AreDiscarded : Prop :=
  ∀ (a : LogicalAddr) (x : BitVec 3) (b : Byte) (s : State),
    let a' := (a &&& 0x1FFF#16) ||| (x.zeroExtend 16 <<< 13)
    exec (.seq a) s = exec (.seq a') s ∧ exec (.get a) s = exec (.get a') s ∧
    exec (.set a b) s = exec (.set a' b) s

/-- No residue: what SEQ, GET and SET do does not depend on what was latched or shifted before (section 3 of
`42_address_sequencer.md`; the spec derives it for SEQ). In GET, and in SET during a write cycle, it is for the same
draws: that equal draw counts give equal draws is the model's choice, log 7. -/
def Obligations.SequencingLeavesNoResidue : Prop :=
  ∀ (addr : LogicalAddr) (b : Byte) (s : State) (q r q' r' : Option Byte) (l : Option CellAddr),
    let u := { s with srLo := q, srHi := r, qLo := q', qHi := r', la := l }
    exec (.seq addr) u = exec (.seq addr) s ∧ exec (.get addr) u = exec (.get addr) s ∧
    exec (.set addr b) u = exec (.set addr b) s

/-! ### The memory port (`43_memory_port.md`) -/

/-- R131: READ, its word and its effect, between commands (OE_N and WE_N are Outputs and WE_N is High, R26): RES is
the byte, zero-extended; the 18 events sample its bits. -/
def Obligations.ReadReturnsTheAddressedByte : Prop :=
  ∀ s : State, s.pins.oeN.mode = some .output → s.pins.weN = ⟨some .output, some .high⟩ →
    decode 0x70000000#32 = .legal .read ∧
    exec .read s = .next { s with
      res := some (BitVec.ofNat 32 (byteAt s s.la).toNat)
      pins := pinsAfterRead s.pins
      trace := s.trace ++ readEvents (byteAt s s.la)
      draws := s.draws + drawsAt s s.la
      pc := s.pc + 1 }

/-- READ completes in every state, in any pin state: it writes RES and changes no cell, no latch, no control pin but
OE_N, which it leaves High; the data lines end as Inputs, and there are 18 events (sections 1 of
`43_memory_port.md` and 4 of `20_memory.md`). -/
def Obligations.ReadChangesNoCell : Prop :=
  ∀ s : State, ∃ t b, exec .read s = .next t ∧ t.res = some (BitVec.ofNat 32 (BitVec.toNat (w := 8) b)) ∧
    t.busdir = some .input ∧ t.trace.length = s.trace.length + 18 ∧
    t = { s with
      res := t.res, pins := pinsAfterRead s.pins, trace := t.trace, draws := t.draws, pc := s.pc + 1 }

/-- R136: WRITE, its word and its effect. With no latched address it faults before any pin event. Otherwise there are
18 events, the lines stay driven to the byte, and the cell at LA becomes the byte; in the conservative model a write
during a write cycle may be dropped, as a draw decides, and WIP is 1 after it. -/
def Obligations.WriteStoresAtTheLatchedAddress : Prop :=
  ∀ (b : Byte) (s : State),
    decode (BitVec.ofNat 32 (0x80000000 + 65536 * b.toNat)) = .legal (.write b) ∧
    (s.la = none → exec (.write b) s = .next { s with
      fault := some ⟨.unknownAddressWrite, s.pc, BitVec.ofNat 32 (0x80000000 + 65536 * b.toNat), .none⟩ }) ∧
    (∀ a, s.la = some a →
      let u := { s with pins := pinsAfterWrite s.pins b, trace := s.trace ++ writeEvents b, pc := s.pc + 1 }
      (s.config.writeCycleModel = .ideal →
        exec (.write b) s = .next { u with mem := memStore s.mem a.toNat b }) ∧
      (s.config.writeCycleModel = .conservative → s.wip = false →
        exec (.write b) s = .next { u with mem := memStore s.mem a.toNat b, wip := true }) ∧
      (s.config.writeCycleModel = .conservative → s.wip = true →
        exec (.write b) s = .next { u with
          mem := if Config.draw 1 s.draws = 1#1 then memStore s.mem a.toNat b else s.mem
          draws := s.draws + 1 }))

/-- A store changes one cell: reading any address after it gives the byte there and what was there before elsewhere
(section 2 of `20_memory.md`); and it keeps the canonical form, which is the model's own choice of form, log 21. -/
def Obligations.StoreChangesExactlyOneCell : Prop :=
  ∀ (m : List Host.Cell) (a : Nat) (v : Byte),
    (∀ x, memCell (memStore m a v) x = if x = a then some v else memCell m x) ∧
    (memWf m = true → a < eepromSize → memWf (memStore m a v) = true)

/-- Two memories in canonical form that read alike at every address are one memory: canonical form has one spelling for
each content (the model's own choice of form, log 21). -/
def Obligations.CanonicalMemoriesReadingAlikeAreEqual : Prop :=
  ∀ m n : List Host.Cell, memWf m = true → memWf n = true → (∀ x, memCell m x = memCell n x) → m = n

/-- R140: GET, its word and its effect, between commands, under the wiring the spec assumes and the default CLK_PULSE:
SEQ's 34 events and latch, then the read transaction's 18 at the cell `addr & 0x1FFF`. -/
def Obligations.GetReadsTheMaskedAddress : Prop :=
  ∀ (addr : LogicalAddr) (s : State),
    s.config.stageMap = defaultStageMap → s.config.clkPulse = .highThenLow →
    s.pins.oeN.mode = some .output → s.pins.weN = ⟨some .output, some .high⟩ →
    let a := BitVec.ofNat 13 (addr.toNat % 0x2000)
    decode (BitVec.ofNat 32 (0x90000000 + addr.toNat)) = .legal (.get addr) ∧
    exec (.get addr) s = .next { s with
      res := some (BitVec.ofNat 32 (byteAt s (some a)).toNat)
      qLo := some (BitVec.ofNat 8 (addr.toNat % 0x2000))
      qHi := some (BitVec.ofNat 8 (addr.toNat % 0x2000 / 256))
      la := some a
      srLo := none, srHi := none
      pins := pinsAfterRead { s.pins with
        addrSerLo := ⟨s.pins.addrSerLo.mode, some (if addr.getLsbD 7 then .high else .low)⟩
        addrSerHi := ⟨s.pins.addrSerHi.mode, some .low⟩
        addrClk := ⟨s.pins.addrClk.mode, some .low⟩ }
      trace := s.trace ++ sequenceEvents s.config addr ++ readEvents (byteAt s (some a))
      draws := s.draws + drawsAt s (some a)
      pc := s.pc + 1 }

/-- R141: SET, its word and its effect in both write-cycle models, under the wiring the spec assumes: SEQ's 34 events
and latch, then the write transaction's 18 at the cell `addr & 0x1FFF`; RES is unchanged and there is no fault. -/
def Obligations.SetWritesTheMaskedAddress : Prop :=
  ∀ (addr : LogicalAddr) (b : Byte) (s : State),
    s.config.stageMap = defaultStageMap → s.config.clkPulse = .highThenLow →
    let a := BitVec.ofNat 13 (addr.toNat % 0x2000)
    let u := { s with
      qLo := some (BitVec.ofNat 8 (addr.toNat % 0x2000))
      qHi := some (BitVec.ofNat 8 (addr.toNat % 0x2000 / 256))
      la := some a
      srLo := none, srHi := none
      pins := pinsAfterWrite { s.pins with
        addrSerLo := ⟨s.pins.addrSerLo.mode, some (if addr.getLsbD 7 then .high else .low)⟩
        addrSerHi := ⟨s.pins.addrSerHi.mode, some .low⟩
        addrClk := ⟨s.pins.addrClk.mode, some .low⟩ } b
      trace := s.trace ++ sequenceEvents s.config addr ++ writeEvents b
      pc := s.pc + 1 }
    decode (BitVec.ofNat 32 (0xA0000000 + 65536 * b.toNat + addr.toNat)) = .legal (.set addr b) ∧
    (s.config.writeCycleModel = .ideal →
      exec (.set addr b) s = .next { u with mem := memStore s.mem a.toNat b }) ∧
    (s.config.writeCycleModel = .conservative → s.wip = false →
      exec (.set addr b) s = .next { u with mem := memStore s.mem a.toNat b, wip := true }) ∧
    (s.config.writeCycleModel = .conservative → s.wip = true →
      exec (.set addr b) s = .next { u with
        mem := if Config.draw 1 s.draws = 1#1 then memStore s.mem a.toNat b else s.mem
        draws := s.draws + 1 })

/-- GET is SEQ then READ, and SET is SEQ then WRITE, in every state and under all parameters, but that `pc` advances
by one (sections 3 of `43_memory_port.md` and `30_encoding.md`). SEQ, READ and WRITE are taken with no command boundary
between them. In GET, and in SET during a write cycle, it is for the same draws: that equal draw counts give equal
draws is the model's choice, log 7. -/
def Obligations.GetAndSetCombineSeqWithTheTransaction : Prop :=
  ∀ (addr : LogicalAddr) (b : Byte) (s : State), ∃ t u v,
    exec (.seq addr) s = .next t ∧ exec .read t = .next u ∧ exec (.write b) t = .next v ∧
    exec (.get addr) s = .next { u with pc := s.pc + 1 } ∧
    exec (.set addr b) s = .next { v with pc := s.pc + 1 } ∧ u.pc = s.pc + 2 ∧ v.pc = s.pc + 2 ∧
    v.fault = s.fault

/-- Round trip: in the ideal model, from any state between commands, SET and then GET at an address with the same low
13 bits return the byte, over two steps (section 4 of `43_memory_port.md`; the spec derives it). -/
def Obligations.SetThenGetReturnsTheByte : Prop :=
  ∀ (s : State) (a a' : LogicalAddr) (b : Byte), Inv s → s.fault = none → s.config.writeCycleModel = .ideal →
    a.toNat % 0x2000 = a'.toNat % 0x2000 →
    s.program[s.pc]? = some (encode (.set a b)) → s.program[s.pc + 1]? = some (encode (.get a')) →
    ∃ t u, step s = .next t ∧ step t = .next u ∧ u.res = some (BitVec.ofNat 32 b.toNat) ∧ u.fault = none ∧
      u.pc = s.pc + 2

/-- The direction of the bus after each command (section 2 of `10_state.md`; D11): READ and GET leave Inputs, WRITE and
SET leave Outputs driven to the byte, and every other command leaves the data lines alone. -/
def Obligations.BusDirectionAfterEachCommand : Prop :=
  ∀ (i : Instr) (s t : State), exec i s = .next t →
    match i with
    | .read => t.busdir = some .input
    | .get _ => t.busdir = some .input
    | .write b => s.la ≠ none → t.busdir = some .output ∧ busByte t.pins b
    | .set _ b => t.busdir = some .output ∧ busByte t.pins b
    | _ => t.pins.data = s.pins.data

/-- A line read through `PinRead`: an Output line shows its drive, an enabled EEPROM shows the bit of the byte it
drives, any other line floats and shows a draw; the level is appended to the trace and nothing else changes but the
count of draws (section 3 of `60_exceptions.md`, D19; section 6 of `10_state.md`). That an Output line whose drive is
unknown shows a draw, and that OE_N and WE_N count by their wires, which need Output mode, is the model's choice,
log 17. -/
def Obligations.PinReadShowsTheLineLevel : Prop :=
  ∀ (i : Fin 8) (r : Byte) (s : State),
    let l := if s.pins.data[i].mode = some .output then s.pins.data[i].drive
      else if s.pins.wire .oeN = some .low ∧ s.pins.wire .weN = some .high then
        some (if r.getLsbD i then .high else .low)
      else none
    let v := l.getD (if Config.draw 1 s.draws = 1#1 then .high else .low)
    pinRead i r s = (v, { s with
      trace := s.trace ++ [.sample (.d i) v], draws := s.draws + (if l = none then 1 else 0) })

/-- `PinMode` writes one pin's mode and leaves its drive; `PinWrite` writes one pin's drive and leaves its mode; each
appends its event; no other pin and no other state changes (sections 2 and 6 of `10_state.md`). -/
def Obligations.PinPrimitivesChangeOnePin : Prop :=
  ∀ (p q : Pin) (m : PinMode) (l : Level) (s : State),
    ((pinMode p m s).pins.pin q = if q = p then ⟨some m, (s.pins.pin p).drive⟩ else s.pins.pin q) ∧
    ((pinWrite p l s).pins.pin q = if q = p then ⟨(s.pins.pin p).mode, some l⟩ else s.pins.pin q) ∧
    pinMode p m s = { s with pins := (pinMode p m s).pins, trace := s.trace ++ [.mode p m] } ∧
    pinWrite p l s = { s with pins := (pinWrite p l s).pins, trace := s.trace ++ [.drive p l] }

/-! ### The whole machine -/

/-- The reset state under any parameters, value by value (section 8 of `10_state.md`, section 1 of
`70_reset_and_hazards.md`; all but the empty trace are the spec's own decisions, D11). The empty command sequence is
the model's choice, log 3; that `State.reset` takes the default parameters is the model's choice, log 2. -/
def Obligations.ResetLeavesTheSpecsValues : Prop :=
  ∀ c : Config,
    let s := State.resetWith c
    s.pc = 0 ∧ s.res = none ∧ s.fault = none ∧ s.wip = false ∧
    s.pins.addrClk = ⟨some .output, some .low⟩ ∧ s.pins.addrSerLo = ⟨some .output, some .low⟩ ∧
    s.pins.addrSerHi = ⟨some .output, some .low⟩ ∧ s.pins.oeN = ⟨some .output, some .high⟩ ∧
    s.pins.weN = ⟨some .output, some .high⟩ ∧ (∀ i : Fin 8, s.pins.data[i] = ⟨some .input, none⟩) ∧
    s.busdir = some .input ∧ s.srLo = none ∧ s.srHi = none ∧ s.qLo = none ∧ s.qHi = none ∧ s.la = none ∧
    (∀ a, memCell s.mem a = none) ∧ s.trace = [] ∧ s.config = c ∧ s.program = [] ∧
    State.reset = State.resetWith defaultConfig

/-- The environment's boot order establishes the reset state from power-up, and WE_N and OE_N are never driven Low on
the way (section 2 of `70_reset_and_hazards.md`; D12; log 16). -/
def Obligations.BootEstablishesTheResetPins : Prop :=
  ∀ c : Config, (State.powerUp c).boot = State.resetWith c ∧
    ∀ k, (powerUpPins.replay (bootEvents.take k)).wire .weN ≠ some .low ∧
      (powerUpPins.replay (bootEvents.take k)).wire .oeN ≠ some .low

/-- The invariant of command boundaries holds at the start of every run: after reset, with any parameters and any
command sequence. -/
def Obligations.RunsStartInTheInvariant : Prop :=
  ∀ (c : Config) (program : List Word), Inv (startRun c program)

/-- Every step keeps the invariant of command boundaries: control pins at rest, one bus direction, LA consistent with
the register outputs, the serial stages unknown, WIP 0 in the ideal model, and a fault record that names the command
at `pc` (sections 1 to 3 of `10_state.md`, sections 1 and 3 of `60_exceptions.md`). Of its clauses, these are the
model's choice: the memory's canonical form (log 21), LA under any STAGE_MAP (log 11), ADDR_CLK under the other
CLK_PULSE (log 10), and `pc` inside the supplied sequence (log 3). -/
def Obligations.EveryStepKeepsTheInvariant : Prop :=
  ∀ s t : State, Inv s → step s = .next t → Inv t

/-- The trace accounts for the pins: every step appends its events, and replaying them on the pins before the step
gives the pins after it, so that the pins are always those after reset with the whole trace replayed (section 6 of
`10_state.md`). -/
def Obligations.TraceAccountsForThePins : Prop :=
  ∀ s t : State, step s = .next t →
    (∃ es, t.trace = s.trace ++ es ∧ t.pins = s.pins.replay es) ∧
    (s.pins = resetPins.replay s.trace → t.pins = resetPins.replay t.trace)

/-- Signal ordering, at every pin event of every step from a boundary state: OE_N and WE_N are never Low together, no
data line is Output while OE_N is Low, WE_N falls only when all data lines are driven, and nothing but its rise
follows its fall, so that data and address are stable during a write pulse. The events on the clock and the serial
lines come first: there are none, and LA is unchanged, or they are a whole sequence whose address LA then holds; so
the address is latched before any data line or WE_N is touched, WE_N never falls while a sequence is in progress, and
it falls only with an address latched (sections 6 of `20_memory.md`, 1 of `43_memory_port.md`, 3 of
`60_exceptions.md`, 3 of `70_reset_and_hazards.md`; the spec derives it). LA under any STAGE_MAP, and a sequence under
the other CLK_PULSE, are the model's choice, log 11 and 10. -/
def Obligations.EveryStepUsesThePinsInOrder : Prop :=
  ∀ s t : State, Inv s → step s = .next t → ∃ address transaction : List Event,
    t.trace = s.trace ++ (address ++ transaction) ∧ orderly s.pins (address ++ transaction) = true ∧
    (∀ e ∈ address, addressPin e.pin = true) ∧ (∀ e ∈ transaction, addressPin e.pin = false) ∧
    ((address = [] ∧ t.la = s.la) ∨
      ∃ addr, address = sequenceEvents s.config addr ∧ t.la = some (latchedAddr s.config addr)) ∧
    (.drive .weN .low ∈ transaction → t.la ≠ none)

/-- How many pin events a step makes: as many as its command's count says if it completes, at most 52, and none if it
faults (section 4 of `70_reset_and_hazards.md`, section 5 of `60_exceptions.md`; the spec derives the counts). Which
events they are is said by the statements of SEQ, READ, WRITE, GET and SET. -/
def Obligations.StepMakesTheCommandsNumberOfEvents : Prop :=
  ∀ s t : State, step s = .next t →
    (t.fault ≠ none → t.trace = s.trace) ∧
    (t.fault = none → ∃ w i, fetch s = some w ∧ decode w = .legal i ∧
      t.trace.length = s.trace.length + eventCount i ∧ eventCount i ≤ 52)

/-- `pc` advances by one when a command completes and stays when it faults (section 1 of `10_state.md`; D2). -/
def Obligations.PcAdvancesByOneUnlessFault : Prop :=
  ∀ s t : State, step s = .next t →
    (t.fault = none → t.pc = s.pc + 1) ∧ (t.fault ≠ none → t.pc = s.pc)

/-- Every command has a next state in every state; and which commands fault, from a state without a fault, and when:
SEG.DIGIT and SEG.ENCODE on a digit above 9, WRITE with no latched address, and no other (section 1 of
`60_exceptions.md`; D8, D10). -/
def Obligations.CommandsFaultExactlyWhenTheSpecSays : Prop :=
  ∀ (i : Instr) (s : State), ∃ t, exec i s = .next t ∧
    (s.fault = none → (t.fault ≠ none ↔
      match i with
      | .segDigit d => 9 < d.toNat
      | .segEncode o t h _ => 9 < o.toNat ∨ 9 < t.toNat ∨ 9 < h.toNat
      | .write _ => s.la = none
      | _ => False))

/-- Faults are precise: a step that faults changes nothing but FAULT after the boundary, and the record holds the `pc`
and the word that was fetched, which is illegal exactly if the code says so (section 1 of `60_exceptions.md`; D9; the
boundary before the command is the model's choice, log 8). -/
def Obligations.FaultsArePrecise : Prop :=
  ∀ s t : State, step s = .next t → t.fault ≠ none → ∃ r : FaultRecord,
    t = { boundary s with fault := some r } ∧ r.pc = s.pc ∧ fetch s = some r.word ∧
    (r.code = .illegalCommand ↔ wordWellFormed r.word = false) ∧
    (r.code = .segIndexOutOfRange ↔ ∃ f d, r.info = .digit f d ∧ 9 < d.toNat) ∧
    (r.code = .unknownAddressWrite → s.la = none)

/-- Only WRITE at the latched address and SET at its own address change a cell, and then to their byte (sections 2 and 4
of `20_memory.md`). -/
def Obligations.OnlyStoresChangeACell : Prop :=
  ∀ (s t : State) (x : Nat), step s = .next t → memCell t.mem x ≠ memCell s.mem x →
    ∃ w b, fetch s = some w ∧ memCell t.mem x = some b ∧
      ((decode w = .legal (.write b) ∧ s.la.map BitVec.toNat = some x) ∨
       ∃ addr, decode w = .legal (.set addr b) ∧ (latchedAddr s.config addr).toNat = x)

/-- No step changes the parameters or the command sequence (section 5 of `10_state.md`, section 1 of
`20_memory.md`; log 2, 3). -/
def Obligations.StepsKeepParametersAndSequence : Prop :=
  ∀ s t : State, step s = .next t → t.config = s.config ∧ t.program = s.program

/-- No command reads RES: with another RES before it, each command does the same, and RES after it is either the same
result or the RES it found (section 1 of `10_state.md`; D3). Where the command takes a draw this is for the same
draws: that equal draw counts give equal draws is the model's choice, log 7. -/
def Obligations.NoCommandReadsTheResult : Prop :=
  ∀ (i : Instr) (s : State) (r : Option Word), ∃ t, exec i s = .next t ∧
    ((t.res ≠ none ∧ exec i { s with res := r } = .next t) ∨
     (t.res = s.res ∧ exec i { s with res := r } = .next { t with res := r }))

/-- A run ends: from any state in the sequence, at most as many steps as commands are left bring it to its end, all
commands done or a fault (section 5 of `60_exceptions.md`; D25). -/
def Obligations.EveryRunEnds : Prop :=
  ∀ s : State, s.pc ≤ s.program.length → ∃ k t, k ≤ s.program.length - s.pc ∧
    Sys2Proof.core.run k s = .next t ∧ (endedWell t = true ∨ endedInFault t = true)

/-! ### Parameters -/

/-- The default parameters are valid, and the default table is the shapes of section 1 of `41_segment_encoder.md` under
the default bit order (D14 to D16: the spec's own choices, log 12; PIN_MAP's placeholder is the model's, log 13). -/
def Obligations.DefaultTableIsTheShapes : Prop :=
  configValid defaultConfig = true ∧
  (∀ d : Fin 10, defaultSegTable.digits[d] = patternOf defaultSegBitOrder digitShapes[d]) ∧
  defaultSegTable.midBar = patternOf defaultSegBitOrder midBarShape ∧
  defaultSegTable.blank = patternOf defaultSegBitOrder blankShape

/-- The image layout aliases under the default IMAGE_SIGN_BIT: the signed and the unsigned entry of one place and value
are the same cell, below 0x400 (section 5 of `20_memory.md`, C1; the spec derives it). -/
def Obligations.ImageEntriesAlias : Prop :=
  ∀ (c : Config) (sf : Bool) (space : BitVec 2) (value : Byte), c.imageSignBit = 15 →
    (maskedAddr (imageAddr c sf space value)).toNat = 256 * space.toNat + value.toNat
end

