-- ==== Sys2Proof/Laws/Decode.lean ====
section
/-! SUPPORT. Lemmas about the decoder's rows and the encoder's words. -/

namespace Sys2Proof

/-- A match under a mask, bit by bit. -/
theorem masked_eq_iff (w m p : Word) :
    (w &&& m == p) = true ↔ ∀ k, k < 32 → (w.getLsbD k && m.getLsbD k) = p.getLsbD k := by
  rw [beq_iff_eq]
  constructor
  · intro h k _
    rw [← h, BitVec.getLsbD_and]
  · intro h
    apply BitVec.eq_of_getLsbD_eq
    intro k hk
    rw [BitVec.getLsbD_and]
    exact h k hk

/-- A row whose opcode is not the word's does not select it: every mask covers the opcode. -/
theorem masked_ne_of_opcode_ne {w p m : Word} (ho : w.extractLsb' 28 4 ≠ p.extractLsb' 28 4)
    (hm : m.extractLsb' 28 4 = 0xF#4) : (w &&& m == p) = false := by
  rw [beq_eq_false_iff_ne]
  intro h
  apply ho
  rw [← h]
  apply BitVec.eq_of_getLsbD_eq
  intro k hk
  have hk' := congrArg (fun x => x.getLsbD k) hm
  rw [BitVec.getLsbD_extractLsb', BitVec.getLsbD_extractLsb', BitVec.getLsbD_and]
  simp only [BitVec.getLsbD_extractLsb'] at hk'
  interval_cases k <;> simp_all

/-- A field as a number is the extracted bits (R10). -/
theorem fieldOf_eq (w : Word) (hi lo : Nat) : fieldOf w hi lo = (w.extractLsb' lo (hi + 1 - lo)).toNat := by
  simp [fieldOf, BitVec.extractLsb'_toNat, Nat.shiftRight_eq_div_pow]

/-- The opcode of each command's word (R72). -/
theorem encode_opcode (i : Instr) : (encode i).extractLsb' 28 4 =
    match i with
    | .decompU _ => 0x1#4
    | .decompS _ => 0x2#4
    | .segDigit _ => 0x3#4
    | .segSign _ => 0x4#4
    | .segEncode _ _ _ _ => 0x5#4
    | .seq _ => 0x6#4
    | .read => 0x7#4
    | .write _ => 0x8#4
    | .get _ => 0x9#4
    | .set _ _ => 0xA#4 := by
  cases i <;> simp only [encode] <;>
  · apply BitVec.eq_of_getLsbD_eq
    intro k hk
    rw [BitVec.getLsbD_extractLsb']
    simp only [BitVec.getLsbD_append]
    interval_cases k <;> simp

/-- A word whose opcode is assigned and whose reserved fields are 0 is well-formed (R71). -/
theorem wordWellFormed_of_fields {w : Word} {f : Format} (ho : opcodeFormat (w.extractLsb' 28 4).toNat = some f)
    (hr : ∀ r ∈ f.reserved, w.extractLsb' r.2 (r.1 + 1 - r.2) = 0#(r.1 + 1 - r.2)) : wordWellFormed w = true := by
  rw [wordWellFormed, fieldOf_eq, ho]
  simp only [List.all_eq_true, beq_iff_eq]
  intro r hm
  rw [fieldOf_eq, hr r hm, BitVec.toNat_ofNat, Nat.zero_mod]

/-- A legal word is selected by a row, and its command is that row's fields of it (R74). -/
theorem decode_legal_row {w : Word} {i : Instr} (h : decode w = .legal i) :
    ∃ r ∈ opcodeRows, r.selects w = true ∧ i = r.fields w := by
  unfold decode at h
  split at h
  · next r hr =>
    cases h
    exact ⟨r, List.mem_of_find?_eq_some hr, List.find?_some (p := fun q : OpcodeRow => q.selects w) hr, rfl⟩
  · cases h

/-- An illegal word is selected by no row (R74). -/
theorem decode_illegal_row {w : Word} {k : Illegal} (h : decode w = .illegal k) :
    k = illegalKind w ∧ ∀ r ∈ opcodeRows, r.selects w = false := by
  unfold decode at h
  split at h
  · cases h
  · next hr =>
    cases h
    exact ⟨rfl, fun r hm => by simpa using List.find?_eq_none.mp hr r hm⟩

end Sys2Proof
end

