-- ==== Sys2Proof/Laws/Memory.lean ====
section
/-! SUPPORT. The laws of the EEPROM's cells: read after write, and the canonical form. -/

namespace Sys2Proof.Machine

theorem memCell_memStore_same (m : List Host.Cell) (a : Nat) (v : Byte) : memCell (memStore m a v) a = some v := by
  induction m with
  | nil => simp [memStore, memCell]
  | cons c rest ih =>
    unfold memStore
    split
    · simp [memCell]
    · split
      · simp [memCell]
      · simp [memCell, *]

theorem memCell_memStore_other (m : List Host.Cell) {a b : Nat} (v : Byte) (h : b ≠ a) :
    memCell (memStore m a v) b = memCell m b := by
  induction m with
  | nil => simp [memStore, memCell, Ne.symm h]
  | cons c rest ih =>
    unfold memStore
    split
    · simp [memCell, Ne.symm h]
    · split
      · next e => subst e; simp [memCell, Ne.symm h]
      · simp only [memCell, ih]

theorem risingFrom_mono {low low' : Nat} {m : List Host.Cell} (h : risingFrom low m = true) (hl : low' ≤ low) :
    risingFrom low' m = true := by
  cases m with
  | nil => rfl
  | cons c rest =>
    simp only [risingFrom, Bool.and_eq_true, decide_eq_true_eq] at h ⊢
    exact ⟨by omega, h.2⟩

theorem risingFrom_memStore {low a : Nat} {m : List Host.Cell} (v : Byte) (h : risingFrom low m = true)
    (ha : low ≤ a) : risingFrom low (memStore m a v) = true := by
  induction m generalizing low with
  | nil => simp [memStore, risingFrom, ha]
  | cons c rest ih =>
    simp only [risingFrom, Bool.and_eq_true, decide_eq_true_eq] at h
    unfold memStore
    split
    · simp only [risingFrom, Bool.and_eq_true, decide_eq_true_eq]
      exact ⟨ha, by omega, h.2⟩
    · split
      · next e => subst e; simp [risingFrom, ha, h.2]
      · simp only [risingFrom, Bool.and_eq_true, decide_eq_true_eq]
        exact ⟨h.1, ih h.2 (by omega)⟩

theorem memStore_all_below {a n : Nat} {m : List Host.Cell} (v : Byte) (h : (m.all fun c => c.1 < n) = true)
    (ha : a < n) : ((memStore m a v).all fun c => c.1 < n) = true := by
  induction m with
  | nil => simp [memStore, ha]
  | cons c rest ih =>
    simp only [List.all_cons, Bool.and_eq_true, decide_eq_true_eq] at h
    unfold memStore
    split
    · simp only [List.all_cons, Bool.and_eq_true, decide_eq_true_eq]
      exact ⟨ha, h.1, h.2⟩
    · split
      · simp only [List.all_cons, Bool.and_eq_true, decide_eq_true_eq]
        exact ⟨ha, h.2⟩
      · simp only [List.all_cons, Bool.and_eq_true, decide_eq_true_eq]
        exact ⟨h.1, ih h.2⟩

/-- A store keeps the canonical form. -/
theorem memWf_memStore {a : Nat} {m : List Host.Cell} (v : Byte) (h : memWf m = true) (ha : a < eepromSize) :
    memWf (memStore m a v) = true := by
  simp only [memWf, Bool.and_eq_true] at h ⊢
  exact ⟨risingFrom_memStore v h.1 (Nat.zero_le a), memStore_all_below v h.2 ha⟩

theorem memCell_of_risingFrom {low b : Nat} {m : List Host.Cell} (h : risingFrom low m = true) (hb : b < low) :
    memCell m b = none := by
  induction m generalizing low with
  | nil => rfl
  | cons c rest ih =>
    simp only [risingFrom, Bool.and_eq_true, decide_eq_true_eq] at h
    simp only [memCell, show c.1 ≠ b by omega, if_false]
    exact ih h.2 (by omega)

/-- In canonical form the cells listed are exactly what a read of each address gives: equal reads, equal memories. -/
theorem rising_ext {low : Nat} {m n : List Host.Cell} (hm : risingFrom low m = true) (hn : risingFrom low n = true)
    (h : ∀ a, memCell m a = memCell n a) : m = n := by
  induction m generalizing n low with
  | nil =>
    cases n with
    | nil => rfl
    | cons d rest => have := h d.1; simp [memCell] at this
  | cons c rest ih =>
    cases n with
    | nil => have := h c.1; simp [memCell] at this
    | cons d rest' =>
      simp only [risingFrom, Bool.and_eq_true, decide_eq_true_eq] at hm hn
      have hcd : c.1 = d.1 := by
        rcases Nat.lt_trichotomy c.1 d.1 with hlt | heq | hgt
        · have := h c.1
          simp only [memCell, if_true, show d.1 ≠ c.1 by omega, if_false] at this
          rw [memCell_of_risingFrom hn.2 (by omega)] at this
          cases this
        · exact heq
        · have := h d.1
          simp only [memCell, if_true, show c.1 ≠ d.1 by omega, if_false] at this
          rw [memCell_of_risingFrom hm.2 (by omega)] at this
          cases this
      have hv : c.2 = d.2 := by simpa [memCell, hcd] using h c.1
      have hrest : rest = rest' := by
        refine ih hm.2 (hcd ▸ hn.2) fun a => ?_
        by_cases ha : c.1 = a
        · subst ha
          rw [memCell_of_risingFrom hm.2 (by omega), memCell_of_risingFrom hn.2 (by omega)]
        · have := h a
          simpa only [memCell, ha, if_false, show d.1 ≠ a from hcd ▸ ha] using this
      rw [hrest, Prod.ext hcd hv]

end Sys2Proof.Machine
end

