-- ==== Sys2Proof/Laws/State.lean ====
section
/-! SUPPORT. What each single update of the state does to each field: one lemma per field per update. -/

namespace Sys2Proof.Machine

@[simp] theorem emit_config (e : Event) (s : State) :
    (emit e s).config = s.config := rfl
@[simp] theorem emit_program (e : Event) (s : State) :
    (emit e s).program = s.program := rfl
@[simp] theorem emit_pc (e : Event) (s : State) :
    (emit e s).pc = s.pc := rfl
@[simp] theorem emit_res (e : Event) (s : State) :
    (emit e s).res = s.res := rfl
@[simp] theorem emit_fault (e : Event) (s : State) :
    (emit e s).fault = s.fault := rfl
@[simp] theorem emit_wip (e : Event) (s : State) :
    (emit e s).wip = s.wip := rfl
@[simp] theorem emit_pins (e : Event) (s : State) :
    (emit e s).pins = s.pins.apply e := rfl
@[simp] theorem emit_srLo (e : Event) (s : State) :
    (emit e s).srLo = s.srLo := rfl
@[simp] theorem emit_srHi (e : Event) (s : State) :
    (emit e s).srHi = s.srHi := rfl
@[simp] theorem emit_qLo (e : Event) (s : State) :
    (emit e s).qLo = s.qLo := rfl
@[simp] theorem emit_qHi (e : Event) (s : State) :
    (emit e s).qHi = s.qHi := rfl
@[simp] theorem emit_la (e : Event) (s : State) :
    (emit e s).la = s.la := rfl
@[simp] theorem emit_mem (e : Event) (s : State) :
    (emit e s).mem = s.mem := rfl
@[simp] theorem emit_trace (e : Event) (s : State) :
    (emit e s).trace = s.trace ++ [e] := rfl
@[simp] theorem emit_draws (e : Event) (s : State) :
    (emit e s).draws = s.draws := rfl

@[simp] theorem memWrite_config (a : CellAddr) (v : Byte) (s : State) :
    (memWrite a v s).config = s.config := rfl
@[simp] theorem memWrite_program (a : CellAddr) (v : Byte) (s : State) :
    (memWrite a v s).program = s.program := rfl
@[simp] theorem memWrite_pc (a : CellAddr) (v : Byte) (s : State) :
    (memWrite a v s).pc = s.pc := rfl
@[simp] theorem memWrite_res (a : CellAddr) (v : Byte) (s : State) :
    (memWrite a v s).res = s.res := rfl
@[simp] theorem memWrite_fault (a : CellAddr) (v : Byte) (s : State) :
    (memWrite a v s).fault = s.fault := rfl
@[simp] theorem memWrite_wip (a : CellAddr) (v : Byte) (s : State) :
    (memWrite a v s).wip = s.wip := rfl
@[simp] theorem memWrite_pins (a : CellAddr) (v : Byte) (s : State) :
    (memWrite a v s).pins = s.pins := rfl
@[simp] theorem memWrite_srLo (a : CellAddr) (v : Byte) (s : State) :
    (memWrite a v s).srLo = s.srLo := rfl
@[simp] theorem memWrite_srHi (a : CellAddr) (v : Byte) (s : State) :
    (memWrite a v s).srHi = s.srHi := rfl
@[simp] theorem memWrite_qLo (a : CellAddr) (v : Byte) (s : State) :
    (memWrite a v s).qLo = s.qLo := rfl
@[simp] theorem memWrite_qHi (a : CellAddr) (v : Byte) (s : State) :
    (memWrite a v s).qHi = s.qHi := rfl
@[simp] theorem memWrite_la (a : CellAddr) (v : Byte) (s : State) :
    (memWrite a v s).la = s.la := rfl
@[simp] theorem memWrite_mem (a : CellAddr) (v : Byte) (s : State) :
    (memWrite a v s).mem = memStore s.mem a.toNat v := rfl
@[simp] theorem memWrite_trace (a : CellAddr) (v : Byte) (s : State) :
    (memWrite a v s).trace = s.trace := rfl
@[simp] theorem memWrite_draws (a : CellAddr) (v : Byte) (s : State) :
    (memWrite a v s).draws = s.draws := rfl

@[simp] theorem unlatch_config (s : State) :
    (unlatch s).config = s.config := rfl
@[simp] theorem unlatch_program (s : State) :
    (unlatch s).program = s.program := rfl
@[simp] theorem unlatch_pc (s : State) :
    (unlatch s).pc = s.pc := rfl
@[simp] theorem unlatch_res (s : State) :
    (unlatch s).res = s.res := rfl
@[simp] theorem unlatch_fault (s : State) :
    (unlatch s).fault = s.fault := rfl
@[simp] theorem unlatch_wip (s : State) :
    (unlatch s).wip = s.wip := rfl
@[simp] theorem unlatch_pins (s : State) :
    (unlatch s).pins = s.pins := rfl
@[simp] theorem unlatch_srLo (s : State) :
    (unlatch s).srLo = none := rfl
@[simp] theorem unlatch_srHi (s : State) :
    (unlatch s).srHi = none := rfl
@[simp] theorem unlatch_qLo (s : State) :
    (unlatch s).qLo = none := rfl
@[simp] theorem unlatch_qHi (s : State) :
    (unlatch s).qHi = none := rfl
@[simp] theorem unlatch_la (s : State) :
    (unlatch s).la = none := rfl
@[simp] theorem unlatch_mem (s : State) :
    (unlatch s).mem = s.mem := rfl
@[simp] theorem unlatch_trace (s : State) :
    (unlatch s).trace = s.trace := rfl
@[simp] theorem unlatch_draws (s : State) :
    (unlatch s).draws = s.draws := rfl

@[simp] theorem State.writeRes_config (s : State) (v : Word) :
    (s.writeRes v).config = s.config := rfl
@[simp] theorem State.writeRes_program (s : State) (v : Word) :
    (s.writeRes v).program = s.program := rfl
@[simp] theorem State.writeRes_pc (s : State) (v : Word) :
    (s.writeRes v).pc = s.pc := rfl
@[simp] theorem State.writeRes_res (s : State) (v : Word) :
    (s.writeRes v).res = some v := rfl
@[simp] theorem State.writeRes_fault (s : State) (v : Word) :
    (s.writeRes v).fault = s.fault := rfl
@[simp] theorem State.writeRes_wip (s : State) (v : Word) :
    (s.writeRes v).wip = s.wip := rfl
@[simp] theorem State.writeRes_pins (s : State) (v : Word) :
    (s.writeRes v).pins = s.pins := rfl
@[simp] theorem State.writeRes_srLo (s : State) (v : Word) :
    (s.writeRes v).srLo = s.srLo := rfl
@[simp] theorem State.writeRes_srHi (s : State) (v : Word) :
    (s.writeRes v).srHi = s.srHi := rfl
@[simp] theorem State.writeRes_qLo (s : State) (v : Word) :
    (s.writeRes v).qLo = s.qLo := rfl
@[simp] theorem State.writeRes_qHi (s : State) (v : Word) :
    (s.writeRes v).qHi = s.qHi := rfl
@[simp] theorem State.writeRes_la (s : State) (v : Word) :
    (s.writeRes v).la = s.la := rfl
@[simp] theorem State.writeRes_mem (s : State) (v : Word) :
    (s.writeRes v).mem = s.mem := rfl
@[simp] theorem State.writeRes_trace (s : State) (v : Word) :
    (s.writeRes v).trace = s.trace := rfl
@[simp] theorem State.writeRes_draws (s : State) (v : Word) :
    (s.writeRes v).draws = s.draws := rfl

@[simp] theorem State.advance_config (s : State) :
    (s.advance).config = s.config := rfl
@[simp] theorem State.advance_program (s : State) :
    (s.advance).program = s.program := rfl
@[simp] theorem State.advance_pc (s : State) :
    (s.advance).pc = s.pc + 1 := rfl
@[simp] theorem State.advance_res (s : State) :
    (s.advance).res = s.res := rfl
@[simp] theorem State.advance_fault (s : State) :
    (s.advance).fault = s.fault := rfl
@[simp] theorem State.advance_wip (s : State) :
    (s.advance).wip = s.wip := rfl
@[simp] theorem State.advance_pins (s : State) :
    (s.advance).pins = s.pins := rfl
@[simp] theorem State.advance_srLo (s : State) :
    (s.advance).srLo = s.srLo := rfl
@[simp] theorem State.advance_srHi (s : State) :
    (s.advance).srHi = s.srHi := rfl
@[simp] theorem State.advance_qLo (s : State) :
    (s.advance).qLo = s.qLo := rfl
@[simp] theorem State.advance_qHi (s : State) :
    (s.advance).qHi = s.qHi := rfl
@[simp] theorem State.advance_la (s : State) :
    (s.advance).la = s.la := rfl
@[simp] theorem State.advance_mem (s : State) :
    (s.advance).mem = s.mem := rfl
@[simp] theorem State.advance_trace (s : State) :
    (s.advance).trace = s.trace := rfl
@[simp] theorem State.advance_draws (s : State) :
    (s.advance).draws = s.draws := rfl

@[simp] theorem State.raise_config (s : State) (code : FaultCode) (word : Word) (info : FaultInfo) :
    (s.raise code word info).config = s.config := rfl
@[simp] theorem State.raise_program (s : State) (code : FaultCode) (word : Word) (info : FaultInfo) :
    (s.raise code word info).program = s.program := rfl
@[simp] theorem State.raise_pc (s : State) (code : FaultCode) (word : Word) (info : FaultInfo) :
    (s.raise code word info).pc = s.pc := rfl
@[simp] theorem State.raise_res (s : State) (code : FaultCode) (word : Word) (info : FaultInfo) :
    (s.raise code word info).res = s.res := rfl
@[simp] theorem State.raise_fault (s : State) (code : FaultCode) (word : Word) (info : FaultInfo) :
    (s.raise code word info).fault = some ⟨code, s.pc, word, info⟩ := rfl
@[simp] theorem State.raise_wip (s : State) (code : FaultCode) (word : Word) (info : FaultInfo) :
    (s.raise code word info).wip = s.wip := rfl
@[simp] theorem State.raise_pins (s : State) (code : FaultCode) (word : Word) (info : FaultInfo) :
    (s.raise code word info).pins = s.pins := rfl
@[simp] theorem State.raise_srLo (s : State) (code : FaultCode) (word : Word) (info : FaultInfo) :
    (s.raise code word info).srLo = s.srLo := rfl
@[simp] theorem State.raise_srHi (s : State) (code : FaultCode) (word : Word) (info : FaultInfo) :
    (s.raise code word info).srHi = s.srHi := rfl
@[simp] theorem State.raise_qLo (s : State) (code : FaultCode) (word : Word) (info : FaultInfo) :
    (s.raise code word info).qLo = s.qLo := rfl
@[simp] theorem State.raise_qHi (s : State) (code : FaultCode) (word : Word) (info : FaultInfo) :
    (s.raise code word info).qHi = s.qHi := rfl
@[simp] theorem State.raise_la (s : State) (code : FaultCode) (word : Word) (info : FaultInfo) :
    (s.raise code word info).la = s.la := rfl
@[simp] theorem State.raise_mem (s : State) (code : FaultCode) (word : Word) (info : FaultInfo) :
    (s.raise code word info).mem = s.mem := rfl
@[simp] theorem State.raise_trace (s : State) (code : FaultCode) (word : Word) (info : FaultInfo) :
    (s.raise code word info).trace = s.trace := rfl
@[simp] theorem State.raise_draws (s : State) (code : FaultCode) (word : Word) (info : FaultInfo) :
    (s.raise code word info).draws = s.draws := rfl

@[simp] theorem draw_config (n : Nat) (s : State) :
    (draw n s).2.config = s.config := rfl
@[simp] theorem draw_program (n : Nat) (s : State) :
    (draw n s).2.program = s.program := rfl
@[simp] theorem draw_pc (n : Nat) (s : State) :
    (draw n s).2.pc = s.pc := rfl
@[simp] theorem draw_res (n : Nat) (s : State) :
    (draw n s).2.res = s.res := rfl
@[simp] theorem draw_fault (n : Nat) (s : State) :
    (draw n s).2.fault = s.fault := rfl
@[simp] theorem draw_wip (n : Nat) (s : State) :
    (draw n s).2.wip = s.wip := rfl
@[simp] theorem draw_pins (n : Nat) (s : State) :
    (draw n s).2.pins = s.pins := rfl
@[simp] theorem draw_srLo (n : Nat) (s : State) :
    (draw n s).2.srLo = s.srLo := rfl
@[simp] theorem draw_srHi (n : Nat) (s : State) :
    (draw n s).2.srHi = s.srHi := rfl
@[simp] theorem draw_qLo (n : Nat) (s : State) :
    (draw n s).2.qLo = s.qLo := rfl
@[simp] theorem draw_qHi (n : Nat) (s : State) :
    (draw n s).2.qHi = s.qHi := rfl
@[simp] theorem draw_la (n : Nat) (s : State) :
    (draw n s).2.la = s.la := rfl
@[simp] theorem draw_mem (n : Nat) (s : State) :
    (draw n s).2.mem = s.mem := rfl
@[simp] theorem draw_trace (n : Nat) (s : State) :
    (draw n s).2.trace = s.trace := rfl
@[simp] theorem draw_draws (n : Nat) (s : State) :
    (draw n s).2.draws = s.draws + 1 := rfl

@[simp] theorem draw_value (n : Nat) (s : State) : (draw n s).1 = Config.draw n s.draws := rfl

@[simp] theorem Pins.pin_addrClk (ps : Pins) : ps.pin .addrClk = ps.addrClk := rfl
@[simp] theorem Pins.pin_addrSerLo (ps : Pins) : ps.pin .addrSerLo = ps.addrSerLo := rfl
@[simp] theorem Pins.pin_addrSerHi (ps : Pins) : ps.pin .addrSerHi = ps.addrSerHi := rfl
@[simp] theorem Pins.pin_oeN (ps : Pins) : ps.pin .oeN = ps.oeN := rfl
@[simp] theorem Pins.pin_weN (ps : Pins) : ps.pin .weN = ps.weN := rfl

@[simp] theorem Pins.setPin_pin_same (ps : Pins) (p : Pin) (v : PinState) : (ps.setPin p v).pin p = v := by
  cases p <;> simp [Pins.setPin, Pins.pin]

theorem Pins.setPin_pin_other (ps : Pins) {p q : Pin} (v : PinState) (h : q ≠ p) :
    (ps.setPin p v).pin q = ps.pin q := by
  cases p <;> cases q <;> simp_all [Pins.setPin, Pins.pin]
  rename_i i j
  exact Vector.getElem_set_ne i.isLt j.isLt (fun e => h (Fin.ext e).symm)

@[simp] theorem Pins.apply_sample (ps : Pins) (p : Pin) (l : Level) : ps.apply (.sample p l) = ps := rfl
@[simp] theorem Pins.apply_mode (ps : Pins) (p : Pin) (m : PinMode) :
    ps.apply (.mode p m) = ps.setPin p ⟨some m, (ps.pin p).drive⟩ := rfl
@[simp] theorem Pins.apply_drive (ps : Pins) (p : Pin) (l : Level) :
    ps.apply (.drive p l) = ps.setPin p ⟨(ps.pin p).mode, some l⟩ := rfl

@[simp] theorem Pins.replay_nil (ps : Pins) : ps.replay [] = ps := rfl
@[simp] theorem Pins.replay_cons (ps : Pins) (e : Event) (es : List Event) :
    ps.replay (e :: es) = (ps.apply e).replay es := rfl
theorem Pins.replay_append (ps : Pins) (es fs : List Event) :
    ps.replay (es ++ fs) = (ps.replay es).replay fs := by simp [Pins.replay]

end Sys2Proof.Machine
end

