-- ==== Sys2Proof/Laws/Ops.lean ====
section
/-! SUPPORT. What each shared operation can do, said once: a sequence, a read transaction, a write transaction, the
command boundary, and the lookups. -/

namespace Sys2Proof.Machine

/-! ### Lists of events -/

/-- The state after a list of pin events: the pins after them, and the events appended to the trace. -/
theorem emit_all (es : List Event) (s : State) :
    es.foldl (fun t e => emit e t) s = { s with pins := s.pins.replay es, trace := s.trace ++ es } := by
  induction es generalizing s with
  | nil => simp
  | cons e es ih => simp [ih]

/-- Switching the bus: its eight mode events (R132, R136). -/
theorem setBusdir_spec (m : PinMode) (s : State) :
    setBusdir m s = { s with
      pins := s.pins.replay (bitLines.map fun i => Event.mode (.d i) m)
      trace := s.trace ++ bitLines.map fun i => Event.mode (.d i) m } := by
  rw [← emit_all, List.foldl_map]
  rfl

/-- Driving a byte: its eight drive events (R136). -/
theorem driveByte_spec (b : Byte) (s : State) :
    driveByte b s = { s with
      pins := s.pins.replay (bitLines.map fun i => Event.drive (.d i) (levelOf (b.getLsbD i.val)))
      trace := s.trace ++ bitLines.map fun i => Event.drive (.d i) (levelOf (b.getLsbD i.val)) } := by
  rw [← emit_all, List.foldl_map]
  rfl

/-! ### The address halves -/

/-- The high byte holds bits 12:8 of the address below three zeros (R51). -/
theorem highByte_bit (a : CellAddr) (i : Nat) : (highByte a).getLsbD i = (decide (i < 5) && a.getLsbD (8 + i)) := by
  rw [highByte, BitVec.getLsbD_append, BitVec.getLsbD_extractLsb']
  by_cases h : i < 5 <;> simp [h]

/-- The low byte holds bits 7:0 of the address (R51). -/
theorem lowByte_bit (a : CellAddr) (i : Nat) : (lowByte a).getLsbD i = (decide (i < 8) && a.getLsbD i) := by
  rw [lowByte, BitVec.getLsbD_extractLsb', Nat.zero_add]

/-! ### The sequence -/

/-- Everything a sequence does (R115, R119): the 34 events, and the latch. -/
theorem sequenceAddr_spec (addr : LogicalAddr) (s : State) :
    sequenceAddr addr s = { s with
      pins := s.pins.replay (sequenceEvents s.config addr)
      trace := s.trace ++ sequenceEvents s.config addr
      srLo := none, srHi := none
      qLo := some (lowByte (maskedAddr addr)), qHi := some (highByte (maskedAddr addr))
      la := some (latchedAddr s.config addr) } := by
  simp [sequenceAddr, latchPulse, shiftOut, shiftStep, clockPulse, pulse, pinWrite, bitLines, sequenceEvents,
    shiftEvents, clockEvents, latchedAddr]

@[simp] theorem sequenceEvents_length (c : Config) (addr : LogicalAddr) : (sequenceEvents c addr).length = 34 := by
  simp [sequenceEvents, shiftEvents, clockEvents, bitLines]

theorem sampledEvents_length {ls : List Level} (h : ls.length = 8) : (sampledEvents ls).length = 18 := by
  simp [sampledEvents, bitLines, h]

@[simp] theorem readEvents_length (r : Byte) : (readEvents r).length = 18 := sampledEvents_length rfl

@[simp] theorem writeEvents_length (b : Byte) : (writeEvents b).length = 18 := by simp [writeEvents, bitLines]

/-- A sequence touches only the clock and the serial lines (R119). -/
theorem sequenceEvents_addressPin (c : Config) (addr : LogicalAddr) :
    ∀ e ∈ sequenceEvents c addr, addressPin e.pin = true := by
  simp [sequenceEvents, shiftEvents, clockEvents, bitLines, Event.pin, addressPin]

/-- A read transaction touches neither the clock nor the serial lines (R132). -/
theorem sampledEvents_addressPin {ls : List Level} (h : ls.length = 8) :
    ∀ e ∈ sampledEvents ls, addressPin e.pin = false := by
  match ls, h with
  | [l0, l1, l2, l3, l4, l5, l6, l7], _ => simp [sampledEvents, bitLines, Event.pin, addressPin]

/-- A write transaction touches neither the clock nor the serial lines (R136). -/
theorem writeEvents_addressPin (b : Byte) : ∀ e ∈ writeEvents b, addressPin e.pin = false := by
  simp [writeEvents, bitLines, Event.pin, addressPin]

/-! ### Reading -/

/-- A device read gives a byte and takes at most a draw; it changes nothing else (R133). -/
theorem deviceRead_spec (s : State) : ∃ n, (deviceRead s).2 = { s with draws := n } := by
  unfold deviceRead
  split
  · exact ⟨_, rfl⟩
  · split
    · exact ⟨_, rfl⟩
    · unfold memRead
      split
      · exact ⟨s.draws, rfl⟩
      · exact ⟨_, rfl⟩

/-- A device read sees only the parameters, LA, WIP, the cells and the draws. -/
theorem deviceRead_pins (s : State) (ps : Pins) (es : List Event) :
    deviceRead { s with pins := ps, trace := es } =
      ((deviceRead s).1, { (deviceRead s).2 with pins := ps, trace := es }) := by
  obtain ⟨c, p, pc, r, f, w, ps', sl, sh, ql, qh, la, m, es', d⟩ := s
  cases la with
  | none => rfl
  | some a =>
    obtain ⟨c1, c2, c3, c4, c5, model, c7, c8⟩ := c
    cases model <;> cases w <;> simp only [deviceRead, State.writing, memRead]
    case conservative.true => rfl
    all_goals cases memCell m a.toNat <;> rfl

/-- A written cell reads as its byte (R48), where no write cycle is seen. -/
theorem deviceRead_written {s : State} {a : CellAddr} {v : Byte} (ha : s.la = some a) (hw : s.writing = false)
    (hv : memCell s.mem a.toNat = some v) : deviceRead s = (v, s) := by
  simp [deviceRead, memRead, ha, hw, hv]

/-- A line's level is found with at most a draw. -/
theorem lineLevel_spec (i : Fin 8) (r : Byte) (s : State) : ∃ n, (lineLevel i r s).2 = { s with draws := n } := by
  unfold lineLevel floatingLevel
  split
  · split
    · exact ⟨s.draws, rfl⟩
    · exact ⟨_, rfl⟩
  · split
    · exact ⟨s.draws, rfl⟩
    · exact ⟨_, rfl⟩

/-- Sampling lines appends one sample a line, in order, and takes draws; nothing else changes. -/
theorem sampleLines_spec (r : Byte) (is : List (Fin 8)) (acc : Byte) (s : State) :
    ∃ (ls : List Level) (n : Nat), ls.length = is.length ∧
      (is.foldl (sampleStep r) (acc, s)).2 =
        { s with trace := s.trace ++ List.zipWith (fun i l => Event.sample (.d i) l) is ls, draws := n } := by
  induction is generalizing acc s with
  | nil => exact ⟨[], s.draws, rfl, by simp⟩
  | cons i is ih =>
    obtain ⟨n, hn⟩ := lineLevel_spec i r s
    obtain ⟨ls, m, hl, h⟩ := ih (acc + levelBit (lineLevel i r s).1 <<< i.val)
      (emit (.sample (.d i) (lineLevel i r s).1) (lineLevel i r s).2)
    refine ⟨(lineLevel i r s).1 :: ls, m, by simp [hl], ?_⟩
    rw [List.foldl_cons, show sampleStep r (acc, s) i = (acc + levelBit (lineLevel i r s).1 <<< i.val,
      emit (.sample (.d i) (lineLevel i r s).1) (lineLevel i r s).2) from rfl, h, hn]
    simp [emit]

/-- Where the EEPROM drives the bus and line `i` is an Input, the line shows bit `i` of the byte (R163). -/
theorem lineLevel_driven {i : Fin 8} {r : Byte} {s : State} (hi : (s.pins.pin (.d i)).mode = some .input)
    (ho : s.pins.wire .oeN = some .low) (hw : s.pins.wire .weN = some .high) :
    lineLevel i r s = (levelOf (r.getLsbD i.val), s) := by
  simp [lineLevel, hi, ho, hw]

/-- Sampling lines on a bus the EEPROM drives. -/
theorem sampleLines_driven {r : Byte} {s : State} (hi : ∀ i : Fin 8, (s.pins.pin (.d i)).mode = some .input)
    (ho : s.pins.wire .oeN = some .low) (hw : s.pins.wire .weN = some .high) (is : List (Fin 8)) (acc : Byte)
    (es : List Event) :
    is.foldl (sampleStep r) (acc, { s with trace := es }) =
      (is.foldl (fun x i => x + levelBit (levelOf (r.getLsbD i.val)) <<< i.val) acc,
        { s with trace := es ++ is.map fun i => Event.sample (.d i) (levelOf (r.getLsbD i.val)) }) := by
  induction is generalizing acc es with
  | nil => simp
  | cons i is ih =>
    rw [List.foldl_cons, List.foldl_cons]
    have : sampleStep r (acc, { s with trace := es }) i = (acc + levelBit (levelOf (r.getLsbD i.val)) <<< i.val,
        { s with trace := es ++ [Event.sample (.d i) (levelOf (r.getLsbD i.val))] }) := by
      have hl : lineLevel i r { s with trace := es } = (levelOf (r.getLsbD i.val), { s with trace := es }) :=
        lineLevel_driven (hi i) ho hw
      simp [sampleStep, pinRead, hl, emit]
    rw [this, ih]
    simp

/-- "bit i = 1 iff line i reads a high level": the eight samples of a byte give the byte back. -/
theorem byte_of_samples : ∀ r : Byte,
    bitLines.foldl (fun (x : Byte) i => x + levelBit (levelOf (r.getLsbD i.val)) <<< i.val) 0 = r := by
  decide

/-- The pins while a read transaction samples: the lines Input, OE_N driven Low. -/
theorem readPins (ps : Pins) :
    let qs := (ps.replay (bitLines.map fun i => Event.mode (.d i) .input)).apply (.drive .oeN .low)
    (∀ i : Fin 8, (qs.pin (.d i)).mode = some .input) ∧ qs.pin .oeN = ⟨ps.oeN.mode, some .low⟩ ∧
      qs.weN = ps.weN := by
  refine ⟨fun i => ?_, by simp [bitLines, Pins.setPin], by simp [bitLines, Pins.setPin]⟩
  fin_cases i <;> simp [bitLines, Pins.setPin, Pins.pin]

/-- The samples of a read transaction do not touch the pins. -/
theorem replay_sampledEvents (ps : Pins) {ls : List Level} (h : ls.length = 8) :
    ps.replay (sampledEvents ls) = pinsAfterRead ps := by
  match ls, h with
  | [l0, l1, l2, l3, l4, l5, l6, l7], _ =>
    simp only [sampledEvents, bitLines, List.map, List.zipWith, List.cons_append, List.nil_append, Pins.replay_cons,
      Pins.replay_nil, Pins.apply_mode, Pins.apply_drive, Pins.apply_sample, Pins.setPin, Pins.pin, pinsAfterRead]
    congr 1
    ext i hi
    all_goals interval_cases i <;> simp

/-- Everything a read transaction does, in any state: 18 events, of which the eight samples show some levels, and
draws (R132). -/
theorem readTxn_spec (s : State) : ∃ (ls : List Level) (n : Nat), ls.length = 8 ∧
    (readTxn s).2 = { s with
      pins := s.pins.replay (sampledEvents ls), trace := s.trace ++ sampledEvents ls, draws := n } := by
  obtain ⟨k, hk⟩ := deviceRead_spec (pinWrite .oeN .low (setBusdir .input s))
  obtain ⟨ls, n, hl, h⟩ := sampleLines_spec (deviceRead (pinWrite .oeN .low (setBusdir .input s))).1 bitLines 0
    (deviceRead (pinWrite .oeN .low (setBusdir .input s))).2
  have hl8 : ls.length = 8 := by simpa [bitLines] using hl
  refine ⟨ls, n, hl8, ?_⟩
  have hr : (readTxn s).2 = pinWrite .oeN .high
      (sampleByte (deviceRead (pinWrite .oeN .low (setBusdir .input s))).1
        (deviceRead (pinWrite .oeN .low (setBusdir .input s))).2).2 := by
    unfold readTxn
    rfl
  rw [hr, sampleByte, h, hk]
  simp only [setBusdir_spec, pinWrite, emit, sampledEvents]
  match ls, hl8 with
  | [l0, l1, l2, l3, l4, l5, l6, l7], _ => simp [bitLines]

/-- Everything a read transaction does where the EEPROM can drive the bus: OE_N is an Output, and WE_N is Output and
High, as between commands (R26). It returns the byte the device drives and samples that byte's bits (R132, R163). -/
theorem readTxn_driven {s : State} (ho : s.pins.oeN.mode = some .output) (hw : s.pins.weN = ⟨some .output, some .high⟩) :
    readTxn s = ((deviceRead s).1, { (deviceRead s).2 with
      pins := s.pins.replay (readEvents (deviceRead s).1)
      trace := s.trace ++ readEvents (deviceRead s).1 }) := by
  obtain ⟨n, hn⟩ := deviceRead_spec s
  have hd := deviceRead_pins s
    ((s.pins.replay (bitLines.map fun i => Event.mode (.d i) .input)).apply (.drive .oeN .low))
    (s.trace ++ (bitLines.map fun i => Event.mode (.d i) .input) ++ [.drive .oeN .low])
  have hp : pinWrite .oeN .low (setBusdir .input s) = { s with
      pins := (s.pins.replay (bitLines.map fun i => Event.mode (.d i) .input)).apply (.drive .oeN .low)
      trace := s.trace ++ (bitLines.map fun i => Event.mode (.d i) .input) ++ [.drive .oeN .low] } := by
    simp only [setBusdir_spec, pinWrite, emit]
  obtain ⟨h1, h2, h3⟩ := readPins s.pins
  unfold readTxn
  rw [hp, hd, hn]
  have hs := sampleLines_driven (r := (deviceRead s).1)
    (s := { s with
      pins := (s.pins.replay (bitLines.map fun i => Event.mode (.d i) .input)).apply (.drive .oeN .low), draws := n })
    h1 (by simp only [Pins.wire, h2, ho, if_true])
    (by simp only [Pins.wire, Pins.pin_weN, h3, hw, if_true]) bitLines 0
    (s.trace ++ (bitLines.map fun i => Event.mode (.d i) .input) ++ [.drive .oeN .low])
  split
  simp only [sampleByte]
  rw [hs, byte_of_samples]
  simp [pinWrite, emit, readEvents, sampledEvents, bitLines]

/-! ### Writing -/

/-- The commit changes the cell's byte or, in the conservative model during a write cycle, possibly not; it sets WIP
in the conservative model and may take a draw (R136, R138). -/
theorem commitByte_spec (a : CellAddr) (b : Byte) (s : State) : ∃ (m : List Host.Cell) (w : Bool) (n : Nat),
    commitByte a b s = { s with mem := m, wip := w, draws := n } ∧
    (m = memStore s.mem a.toNat b ∨ (m = s.mem ∧ s.writing = true)) ∧
    (s.config.writeCycleModel = .ideal → w = s.wip ∧ n = s.draws) ∧
    (s.config.writeCycleModel = .conservative → w = true) := by
  unfold commitByte
  split
  · next h => exact ⟨_, s.wip, s.draws, rfl, .inl rfl, fun _ => ⟨rfl, rfl⟩, fun h' => by simp [h] at h'⟩
  · next h =>
    split
    · next hw =>
      by_cases hc : (draw 1 s).1 = 1#1
      · simp only [hc, if_true]
        exact ⟨_, true, _, rfl, .inl rfl, fun h' => by simp [h] at h', fun _ => rfl⟩
      · simp only [hc, if_false]
        exact ⟨_, true, _, rfl, .inr ⟨rfl, by simp [State.writing, h, hw]⟩, fun h' => by simp [h] at h',
          fun _ => rfl⟩
    · exact ⟨_, true, _, rfl, .inl rfl, fun h' => by simp [h] at h', fun _ => rfl⟩

/-- In the ideal model the commit is the store (R136). -/
theorem commitByte_ideal {s : State} (h : s.config.writeCycleModel = .ideal) (a : CellAddr) (b : Byte) :
    commitByte a b s = memWrite a b s := by
  unfold commitByte
  simp [h]

/-- A write transaction is its 18 events, then the commit (R136). -/
theorem writeTxn_spec (a : CellAddr) (b : Byte) (s : State) :
    writeTxn a b s = commitByte a b { s with
      pins := s.pins.replay (writeEvents b), trace := s.trace ++ writeEvents b } := by
  simp only [writeTxn, pulse, pinWrite, driveByte_spec, setBusdir_spec, emit, writeEvents]
  simp [Pins.replay_append]

/-! ### The command boundary -/

/-- The boundary may end a write cycle and take a draw; it changes nothing else, and nothing at all unless a write
cycle of the conservative model is in progress (R137). -/
theorem boundary_spec (s : State) : ∃ (w : Bool) (n : Nat), boundary s = { s with wip := w, draws := n } ∧
    (s.writing = false → w = s.wip ∧ n = s.draws) ∧ (w = true → s.wip = true) := by
  unfold boundary
  split
  · next h =>
    have hw : s.wip = true := by simp [State.writing] at h; exact h.2
    by_cases hc : (draw 1 s).1 = 1#1
    · simp only [hc, if_true]
      exact ⟨false, _, rfl, fun h' => by simp [h] at h', fun h' => by cases h'⟩
    · simp only [hc, if_false]
      exact ⟨s.wip, _, rfl, fun h' => by simp [h] at h', fun _ => hw⟩
  · exact ⟨s.wip, s.draws, rfl, fun _ => ⟨rfl, rfl⟩, fun h => h⟩

theorem boundary_of_not_writing {s : State} (h : s.writing = false) : boundary s = s := by
  simp [boundary, h]

/-! ### The transactions look at neither `pc` nor RES -/

theorem deviceRead_ignores (s : State) (n : Nat) (v : Option Word) :
    deviceRead { s with pc := n, res := v } = ((deviceRead s).1, { (deviceRead s).2 with pc := n, res := v }) := by
  obtain ⟨c, p, pc, r, f, w, ps, sl, sh, ql, qh, la, m, es, d⟩ := s
  cases la with
  | none => rfl
  | some a =>
    obtain ⟨c1, c2, c3, c4, c5, model, c7, c8⟩ := c
    cases model <;> cases w <;> simp only [deviceRead, State.writing, memRead]
    case conservative.true => rfl
    all_goals cases memCell m a.toNat <;> rfl

theorem lineLevel_ignores (i : Fin 8) (b : Byte) (s : State) (n : Nat) (v : Option Word) :
    lineLevel i b { s with pc := n, res := v } =
      ((lineLevel i b s).1, { (lineLevel i b s).2 with pc := n, res := v }) := by
  unfold lineLevel
  split
  · cases (s.pins.pin (.d i)).drive <;> rfl
  · split <;> rfl

theorem sampleLines_ignores (b : Byte) (is : List (Fin 8)) (acc : Byte) (s : State) (n : Nat) (v : Option Word) :
    is.foldl (sampleStep b) (acc, { s with pc := n, res := v }) =
      ((is.foldl (sampleStep b) (acc, s)).1, { (is.foldl (sampleStep b) (acc, s)).2 with pc := n, res := v }) := by
  induction is generalizing acc s with
  | nil => rfl
  | cons i is ih =>
    have h : sampleStep b (acc, { s with pc := n, res := v }) i =
        ((sampleStep b (acc, s) i).1, { (sampleStep b (acc, s) i).2 with pc := n, res := v }) := by
      simp only [sampleStep, pinRead, lineLevel_ignores, emit]
    rw [List.foldl_cons, List.foldl_cons, h, ih]

/-- A read transaction does the same whatever `pc` and RES are. -/
theorem readTxn_ignores (s : State) (n : Nat) (v : Option Word) :
    readTxn { s with pc := n, res := v } = ((readTxn s).1, { (readTxn s).2 with pc := n, res := v }) := by
  have hp : ∀ m t, setBusdir m { t with pc := n, res := v } = { setBusdir m t with pc := n, res := v } := by
    intro m t
    rw [setBusdir_spec, setBusdir_spec]
  have hw : ∀ l t, pinWrite .oeN l { t with pc := n, res := v } = { pinWrite .oeN l t with pc := n, res := v } :=
    fun _ _ => rfl
  unfold readTxn
  simp only [hp, hw, deviceRead_ignores, sampleByte, sampleLines_ignores]

theorem commitByte_ignores (a : CellAddr) (b : Byte) (s : State) (n : Nat) (v : Option Word) :
    commitByte a b { s with pc := n, res := v } = { commitByte a b s with pc := n, res := v } := by
  obtain ⟨⟨c1, c2, c3, c4, c5, model, c7, c8⟩, p, pc, r, f, w, ps, sl, sh, ql, qh, la, m, es, d⟩ := s
  cases model with
  | ideal => rfl
  | conservative =>
    cases w with
    | false => rfl
    | true =>
      by_cases hc : Config.draw 1 d = 1#1
      · simp [commitByte, draw, hc, memWrite]
      · simp [commitByte, draw, hc]

/-- A write transaction does the same whatever `pc` and RES are. -/
theorem writeTxn_ignores (a : CellAddr) (b : Byte) (s : State) (n : Nat) (v : Option Word) :
    writeTxn a b { s with pc := n, res := v } = { writeTxn a b s with pc := n, res := v } := by
  rw [writeTxn_spec, writeTxn_spec]
  exact commitByte_ignores a b
    { s with pins := s.pins.replay (writeEvents b), trace := s.trace ++ writeEvents b } n v

/-! ### The pins after each transaction -/

/-- A write transaction leaves the lines driven to the byte and WE_N High (R135, R136). -/
theorem replay_writeEvents (ps : Pins) (b : Byte) : ps.replay (writeEvents b) = pinsAfterWrite ps b := by
  simp only [writeEvents, bitLines, List.map, List.cons_append, List.nil_append, Pins.replay_cons, Pins.replay_nil,
    Pins.apply_mode, Pins.apply_drive, Pins.setPin, Pins.pin, pinsAfterWrite]
  congr 1
  ext i hi
  all_goals interval_cases i <;> simp [levelOf]

/-- A read transaction leaves the lines Input with their drives, and OE_N High (R132, R134). -/
theorem replay_readEvents (ps : Pins) (b : Byte) : ps.replay (readEvents b) = pinsAfterRead ps :=
  replay_sampledEvents ps rfl

/-- A sequence leaves the serial lines at their last bits, ADDR_SER_HI Low, and the clock at rest (R119). -/
theorem replay_sequenceEvents (c : Config) (ps : Pins) (a : LogicalAddr) :
    ps.replay (sequenceEvents c a) = { ps with
      addrSerLo := ⟨ps.addrSerLo.mode, some (if a.getLsbD 7 then .high else .low)⟩
      addrSerHi := ⟨ps.addrSerHi.mode, some .low⟩
      addrClk := ⟨ps.addrClk.mode, some (pulseSecond c.clkPulse)⟩ } := by
  have h : (highByte (maskedAddr a)).getLsbD (7 : Fin 8).val = false := highByte_bit _ 7
  have l : (lowByte (maskedAddr a)).getLsbD (7 : Fin 8).val = a.getLsbD 7 := by
    rw [lowByte_bit, maskedAddr, BitVec.getLsbD_extractLsb']
    simp
  simp only [sequenceEvents, shiftEvents, clockEvents, bitLines, List.flatMap_cons, List.flatMap_nil, List.cons_append,
    List.nil_append, Pins.replay_cons, Pins.replay_nil, Pins.apply_drive, Pins.setPin, Pins.pin, levelOf,
    List.append_nil, h, l, Bool.false_eq_true, if_false]

/-- A device read, as the byte and the draws the statements speak of (R133). -/
theorem deviceRead_byteAt (s : State) :
    deviceRead s = (byteAt s s.la, { s with draws := s.draws + drawsAt s s.la }) := by
  obtain ⟨c, p, pc, r, f, w, ps, sl, sh, ql, qh, la, m, es, d⟩ := s
  cases la with
  | none => rfl
  | some a =>
    by_cases h : c.writeCycleModel = .conservative ∧ w = true
    · simp [deviceRead, byteAt, drawsAt, State.writing, h.1, h.2, draw]
    · have hw : State.writing ⟨c, p, pc, r, f, w, ps, sl, sh, ql, qh, some a, m, es, d⟩ = false := by
        simpa [State.writing] using h
      simp only [deviceRead, hw, byteAt, drawsAt, memRead, Option.bind, h, if_false, Bool.false_eq_true]
      cases memCell m a.toNat <;> rfl

/-! ### Lookups and the command at `pc` -/

/-- A digit has a pattern exactly if it is 0 to 9 (R102). -/
theorem digitPattern_isSome (c : Config) (d : Digit) : (digitPattern c d).isSome = decide (d.toNat ≤ 9) := by
  by_cases h : d.toNat ≤ 9
  · have : d.toNat < 10 := by omega
    simp [digitPattern, h, this]
  · have : ¬ d.toNat < 10 := by omega
    simp [digitPattern, h, this]

theorem digitPattern_legal {c : Config} {d : Digit} (h : d.toNat < 10) :
    digitPattern c d = some (c.segTable.digits[d.toNat]) := by simp [digitPattern, h]

theorem digitPattern_illegal {c : Config} {d : Digit} (h : 9 < d.toNat) : digitPattern c d = none := by
  simp [digitPattern]; omega

/-- Under the default wiring the latched address is the masked address (R29, R117). -/
theorem wiredAddr_default (a : CellAddr) : wiredAddr defaultStageMap (highByte a) (lowByte a) = a := by
  apply BitVec.eq_of_getLsbD_eq
  intro i hi
  rw [wiredAddr, BitVec.getLsbD_ofFnLE]
  interval_cases i
  iterate 8 exact lowByte_bit a _
  iterate 5 exact highByte_bit a _

/-- The word placed is the word at `pc`. -/
theorem placeWord_get (program : List Word) (pc : Nat) (w : Word) : (placeWord program pc w)[pc]? = some w := by
  have : (program.take pc ++ List.replicate (pc - program.length) 0#32).length = pc := by simp; omega
  rw [placeWord, List.getElem?_append_right (by omega), this]
  simp

end Sys2Proof.Machine
end

