-- ==== Sys2Proof/Laws/PerInstr.lean ====
section
/-! SUPPORT. Families of statements about each command as syntax, one lemma per constructor. -/

namespace Sys2Proof.Laws

/-- The command's word is within its format: the opcode is assigned and every reserved bit is 0 (R71). -/
def EncodesWellFormed.Statement (i : Instr) : Prop := wordWellFormed (encode i) = true

theorem EncodesWellFormed.decompU (v : Byte) : EncodesWellFormed.Statement (.decompU v) := by
  refine wordWellFormed_of_fields (by rw [encode_opcode]; rfl) fun r hr => ?_
  simp only [Format.reserved, List.mem_cons, List.not_mem_nil, or_false] at hr
  subst hr
  apply BitVec.eq_of_getLsbD_eq
  intro k hk
  simp only [BitVec.getLsbD_extractLsb', encode, BitVec.getLsbD_append]
  interval_cases k <;> simp

theorem EncodesWellFormed.decompS (v : Byte) : EncodesWellFormed.Statement (.decompS v) := by
  refine wordWellFormed_of_fields (by rw [encode_opcode]; rfl) fun r hr => ?_
  simp only [Format.reserved, List.mem_cons, List.not_mem_nil, or_false] at hr
  subst hr
  apply BitVec.eq_of_getLsbD_eq
  intro k hk
  simp only [BitVec.getLsbD_extractLsb', encode, BitVec.getLsbD_append]
  interval_cases k <;> simp

theorem EncodesWellFormed.segDigit (d : Digit) : EncodesWellFormed.Statement (.segDigit d) := by
  refine wordWellFormed_of_fields (by rw [encode_opcode]; rfl) fun r hr => ?_
  simp only [Format.reserved, List.mem_cons, List.not_mem_nil, or_false] at hr
  subst hr
  apply BitVec.eq_of_getLsbD_eq
  intro k hk
  simp only [BitVec.getLsbD_extractLsb', encode, BitVec.getLsbD_append]
  interval_cases k <;> simp

theorem EncodesWellFormed.segSign (neg : Bool) : EncodesWellFormed.Statement (.segSign neg) := by
  refine wordWellFormed_of_fields (by rw [encode_opcode]; rfl) fun r hr => ?_
  simp only [Format.reserved, List.mem_cons, List.not_mem_nil, or_false] at hr
  subst hr
  apply BitVec.eq_of_getLsbD_eq
  intro k hk
  simp only [BitVec.getLsbD_extractLsb', encode, BitVec.getLsbD_append]
  interval_cases k <;> simp

theorem EncodesWellFormed.segEncode (o t h : Digit) (neg : Bool) : EncodesWellFormed.Statement (.segEncode o t h neg) := by
  refine wordWellFormed_of_fields (by rw [encode_opcode]; rfl) fun r hr => ?_
  simp only [Format.reserved, List.mem_cons, List.not_mem_nil, or_false] at hr
  subst hr
  apply BitVec.eq_of_getLsbD_eq
  intro k hk
  simp only [BitVec.getLsbD_extractLsb', encode, BitVec.getLsbD_append]
  interval_cases k <;> simp

theorem EncodesWellFormed.seq (addr : LogicalAddr) : EncodesWellFormed.Statement (.seq addr) := by
  refine wordWellFormed_of_fields (by rw [encode_opcode]; rfl) fun r hr => ?_
  simp only [Format.reserved, List.mem_cons, List.not_mem_nil, or_false] at hr
  subst hr
  apply BitVec.eq_of_getLsbD_eq
  intro k hk
  simp only [BitVec.getLsbD_extractLsb', encode, BitVec.getLsbD_append]
  interval_cases k <;> simp

theorem EncodesWellFormed.read : EncodesWellFormed.Statement (.read) := by
  refine wordWellFormed_of_fields (by rw [encode_opcode]; rfl) fun r hr => ?_
  simp only [Format.reserved, List.mem_cons, List.not_mem_nil, or_false] at hr
  subst hr
  apply BitVec.eq_of_getLsbD_eq
  intro k hk
  simp only [BitVec.getLsbD_extractLsb', encode, BitVec.getLsbD_append]
  interval_cases k <;> simp

theorem EncodesWellFormed.write (b : Byte) : EncodesWellFormed.Statement (.write b) := by
  refine wordWellFormed_of_fields (by rw [encode_opcode]; rfl) fun r hr => ?_
  simp only [Format.reserved, List.mem_cons, List.not_mem_nil, or_false] at hr
  obtain rfl | rfl := hr
  · apply BitVec.eq_of_getLsbD_eq
    intro k hk
    simp only [BitVec.getLsbD_extractLsb', encode, BitVec.getLsbD_append]
    interval_cases k <;> simp
  · apply BitVec.eq_of_getLsbD_eq
    intro k hk
    simp only [BitVec.getLsbD_extractLsb', encode, BitVec.getLsbD_append]
    interval_cases k <;> simp

theorem EncodesWellFormed.get (addr : LogicalAddr) : EncodesWellFormed.Statement (.get addr) := by
  refine wordWellFormed_of_fields (by rw [encode_opcode]; rfl) fun r hr => ?_
  simp only [Format.reserved, List.mem_cons, List.not_mem_nil, or_false] at hr
  subst hr
  apply BitVec.eq_of_getLsbD_eq
  intro k hk
  simp only [BitVec.getLsbD_extractLsb', encode, BitVec.getLsbD_append]
  interval_cases k <;> simp

theorem EncodesWellFormed.set (addr : LogicalAddr) (b : Byte) : EncodesWellFormed.Statement (.set addr b) := by
  refine wordWellFormed_of_fields (by rw [encode_opcode]; rfl) fun r hr => ?_
  simp only [Format.reserved, List.mem_cons, List.not_mem_nil, or_false] at hr
  subst hr
  apply BitVec.eq_of_getLsbD_eq
  intro k hk
  simp only [BitVec.getLsbD_extractLsb', encode, BitVec.getLsbD_append]
  interval_cases k <;> simp

end Sys2Proof.Laws
end

