-- ==== Sys2Proof/Laws/Step.lean ====
section
/-! SUPPORT. What a command and a step can do, said once: every later proof about `exec` or `step` starts here. -/

namespace Sys2Proof.Machine

/-- The operands and states on which a command faults (`60_exceptions.md` R151). -/
def faultsOn (i : Instr) (s : State) : Prop :=
  match i with
  | .segDigit d => 9 < d.toNat
  | .segEncode o t h _ => 9 < o.toNat ∨ 9 < t.toNat ∨ 9 < h.toNat
  | .write _ => s.la = none
  | _ => False

/-- Every next state a command can have, from state `s`. -/
inductive Effect (i : Instr) (s : State) : State → Prop where
  /-- It takes a fault: only FAULT changes. -/
  | faulted (r : FaultRecord) (hpc : r.pc = s.pc) (hword : r.word = encode i) (hcode : r.code ≠ .illegalCommand)
      (hinfo : r.code = .segIndexOutOfRange ↔ ∃ f d, r.info = .digit f d ∧ 9 < d.toNat)
      (hla : r.code = .unknownAddressWrite → s.la = none) (hf : faultsOn i s) :
      Effect i s { s with fault := some r }
  /-- It only computes a result: the decomposer and the encoder. -/
  | result (v : Word) (hev : eventCount i = 0) (hf : ¬ faultsOn i s) :
      Effect i s { s with res := some v, pc := s.pc + 1 }
  | seq (a : LogicalAddr) (hi : i = .seq a) : Effect i s (sequenceAddr a s).advance
  | read (hi : i = .read) : Effect i s ((readTxn s).2.writeRes (zext32 (readTxn s).1)).advance
  | write (b : Byte) (a : CellAddr) (hi : i = .write b) (hla : s.la = some a) : Effect i s (writeTxn a b s).advance
  | get (a : LogicalAddr) (hi : i = .get a) :
      Effect i s ((readTxn (sequenceAddr a s)).2.writeRes (zext32 (readTxn (sequenceAddr a s)).1)).advance
  | set (a : LogicalAddr) (b : Byte) (hi : i = .set a b) :
      Effect i s (writeTxn (latchedAddr s.config a) b (sequenceAddr a s)).advance

theorem digitPattern_eq_none {c : Config} {d : Digit} : digitPattern c d = none ↔ 9 < d.toNat := by
  have h := digitPattern_isSome c d
  cases hd : digitPattern c d <;> simp_all

theorem digitPattern_eq_some {c : Config} {d : Digit} {p : Byte} (h : digitPattern c d = some p) :
    d.toNat ≤ 9 := by
  by_contra h'
  rw [digitPattern_eq_none.mpr (by omega)] at h
  cases h

/-- Every command has a next state in every state, and it is one of those above. -/
theorem exec_effect (i : Instr) (s : State) : ∃ t, exec i s = .next t ∧ Effect i s t := by
  cases i with
  | decompU v => exact ⟨_, rfl, .result _ rfl id⟩
  | decompS v => exact ⟨_, rfl, .result _ rfl id⟩
  | segSign neg => exact ⟨_, rfl, .result _ rfl id⟩
  | segDigit d =>
    simp only [exec, execSegDigit]
    cases h : digitPattern s.config d with
    | none =>
      have h9 := digitPattern_eq_none.mp h
      exact ⟨_, rfl, .faulted _ rfl rfl (by simp) (by simp [h9]) (by simp) h9⟩
    | some p =>
      have h9 := digitPattern_eq_some h
      exact ⟨_, rfl, .result _ rfl (by simp only [faultsOn]; omega)⟩
  | segEncode o t h neg =>
    simp only [exec, execSegEncode]
    cases h0 : digitPattern s.config o with
    | none =>
      have h9 := digitPattern_eq_none.mp h0
      exact ⟨_, rfl, .faulted _ rfl rfl (by simp) (by simp [h9]) (by simp) (.inl h9)⟩
    | some p0 =>
      cases h1 : digitPattern s.config t with
      | none =>
        have h9 := digitPattern_eq_none.mp h1
        exact ⟨_, rfl, .faulted _ rfl rfl (by simp) (by simp [h9]) (by simp) (.inr (.inl h9))⟩
      | some p1 =>
        cases h2 : digitPattern s.config h with
        | none =>
          have h9 := digitPattern_eq_none.mp h2
          exact ⟨_, rfl, .faulted _ rfl rfl (by simp) (by simp [h9]) (by simp) (.inr (.inr h9))⟩
        | some p2 =>
          have g0 := digitPattern_eq_some h0
          have g1 := digitPattern_eq_some h1
          have g2 := digitPattern_eq_some h2
          exact ⟨_, rfl, .result _ rfl (by simp only [faultsOn]; omega)⟩
  | seq a => exact ⟨_, rfl, .seq a rfl⟩
  | read => exact ⟨_, rfl, .read rfl⟩
  | write b =>
    simp only [exec, execWrite]
    cases h : s.la with
    | none => exact ⟨_, rfl, .faulted _ rfl rfl (by simp) (by simp) (by simp [h]) h⟩
    | some a => exact ⟨_, rfl, .write b a rfl h⟩
  | get a => exact ⟨_, rfl, .get a rfl⟩
  | set a b => exact ⟨_, rfl, .set a b rfl⟩

/-- The effect of a command that is known to answer `t`. -/
theorem effect_of_exec {i : Instr} {s t : State} (h : exec i s = .next t) : Effect i s t := by
  obtain ⟨u, hu, he⟩ := exec_effect i s
  rw [hu] at h
  cases h
  exact he

/-- Everything a step that has a next state did: there was no fault, there was a command word, and it was illegal or
ran after the boundary. -/
theorem step_cases {s t : State} (h : step s = .next t) : s.fault = none ∧ ∃ w, fetch s = some w ∧
    ((∃ k, decode w = .illegal k ∧ t = (boundary s).raise .illegalCommand w .none) ∨
     (∃ i, decode w = .legal i ∧ Effect i (boundary s) t)) := by
  unfold step at h
  split at h
  · cases h
  · next hf =>
    refine ⟨hf, ?_⟩
    split at h
    · cases h
    · next w hw =>
      refine ⟨w, hw, ?_⟩
      split at h
      · next k hd =>
        cases h
        exact .inl ⟨k, hd, rfl⟩
      · next i hd => exact .inr ⟨i, hd, effect_of_exec h⟩

/-- A step's command stood inside the sequence. -/
theorem fetch_bound {s : State} {w : Word} (h : fetch s = some w) : s.pc < s.program.length :=
  (List.getElem?_eq_some_iff.mp h).1

/-- A write transaction changes the pins, the trace, one cell, WIP and the draws, and nothing else (R136). -/
theorem writeTxn_frame (a : CellAddr) (b : Byte) (s : State) : ∃ (m : List Host.Cell) (w : Bool) (n : Nat),
    writeTxn a b s = { s with
      pins := pinsAfterWrite s.pins b, trace := s.trace ++ writeEvents b, mem := m, wip := w, draws := n } ∧
    (m = memStore s.mem a.toNat b ∨ m = s.mem) ∧ (s.config.writeCycleModel = .ideal → w = s.wip) := by
  rw [writeTxn_spec, replay_writeEvents]
  obtain ⟨m, w, n, h, h1, h2, _⟩ := commitByte_spec a b
    { s with pins := pinsAfterWrite s.pins b, trace := s.trace ++ writeEvents b }
  exact ⟨m, w, n, h, h1.imp id And.left, fun hm => (h2 hm).1⟩

end Sys2Proof.Machine
end

