-- ==== Sys2Proof/Tests/Slice0.lean ====
section
/-! SUPPORT. Small tests, with expected results from the spec's rules and `95_test_vectors.md`, and for each statement
with hypotheses a state and operands that meet them all. -/

namespace Sys2Proof.Tests

open Sys2Proof.Machine

/-! ### Helpers -/

/-- The next state of an outcome. -/
def nextOf (o : Host.Outcome State Fault Refusal) : Option State :=
  match o with
  | .next t => some t
  | _ => none

/-- The outcome is a next state of which the check `p` holds. -/
def holdsNext (o : Host.Outcome State Fault Refusal) (p : State → Bool) : Bool := (nextOf o).any p

theorem exists_next {o : Host.Outcome State Fault Refusal} {p : State → Bool} (h : holdsNext o p = true) :
    ∃ t, o = .next t ∧ p t = true := by
  cases o with
  | next t => exact ⟨t, rfl, h⟩
  | fault r => cases h
  | refused r => cases h

/-- A run's first state under the default parameters. -/
def start (program : List Word) : State := startRun defaultConfig program

/-- Reset with address 0x105 latched, as after `SEQ 0x0105` (the trace and the pins left as at reset). -/
def latched : State := { State.reset with qLo := some 0x05, qHi := some 0x01, la := some 0x105 }

/-- The conservative write-cycle model, with or without a write cycle in progress. -/
def conservative (wip : Bool) : State :=
  { latched with config := { defaultConfig with writeCycleModel := .conservative }, wip := wip }

/-! ### Well-formed words and lines: one ill-formed term for each check (R71, R74, R76; L2.9) -/

theorem test_wf_opcode_zero : wordWellFormed 0x00000000 = false := by decide
theorem test_wf_opcode_unassigned : [0xB0000000, 0xC0000000, 0xD0000000, 0xE0000000, 0xFFFFFFFF].all
    (fun w => !wordWellFormed w) = true := by decide
theorem test_wf_reserved_V : wordWellFormed 0x10000100 = false := by decide
theorem test_wf_reserved_G : wordWellFormed 0x30000010 = false := by decide
theorem test_wf_reserved_S : wordWellFormed 0x40000002 = false := by decide
theorem test_wf_reserved_T : wordWellFormed 0x50002000 = false := by decide
theorem test_wf_reserved_A : wordWellFormed 0x60010000 = false := by decide
theorem test_wf_reserved_N : wordWellFormed 0x70000001 = false := by decide
theorem test_wf_reserved_B_low : wordWellFormed 0x80000001 = false := by decide
theorem test_wf_reserved_B_high : wordWellFormed 0x81000000 = false := by decide
theorem test_wf_reserved_AB : wordWellFormed 0xA1000000 = false := by decide
theorem test_wf_edges : [0x100000FF, 0x3000000F, 0x50001FFF, 0x6000FFFF, 0xA0FFFFFF].all wordWellFormed = true := by
  decide
theorem test_asm_out_of_range :
    [AsmCmd.decompU (-1), .decompU 256, .decompS (-129), .segDigit 16, .segSign 2, .segEncode 16 0 0 0,
      .segEncode 0 16 0 0, .segEncode 0 0 16 0, .segEncode 0 0 0 2, .seq 0x10000, .write 256, .get 0x10000,
      .set 0x10000 0, .set 0 256, .setimg 2 0 0 0, .setimg 0 4 0 0, .setimg 0 0 256 0, .setimg 0 0 0 256].all
      (fun a => !a.wellFormed) = true := by decide

/-! ### Decoding: each word written out from its encoding (the opcode table's `encoding` column) -/

theorem test_decode_decompU : decode 0b00010000000000000000000011111111 = .legal (.decompU 255) := by decide
theorem test_decode_decompS : decode 0b00100000000000000000000011111011 = .legal (.decompS 0xFB) := by decide
theorem test_decode_segDigit : decode 0b00110000000000000000000000000101 = .legal (.segDigit 5) := by decide
theorem test_decode_segSign : decode 0b01000000000000000000000000000001 = .legal (.segSign true) := by decide
theorem test_decode_segEncode :
    decode 0b01010000000000000001000100101000 = .legal (.segEncode 8 2 1 true) := by decide
theorem test_decode_seq : decode 0b01100000000000001001111111111111 = .legal (.seq 0x9FFF) := by decide
theorem test_decode_read : decode 0b01110000000000000000000000000000 = .legal .read := by decide
theorem test_decode_write : decode 0b10000000011111010000000000000000 = .legal (.write 0x7D) := by decide
theorem test_decode_get : decode 0b10010000000000000001111111111111 = .legal (.get 0x1FFF) := by decide
theorem test_decode_set : decode 0b10100000101010110001111111111110 = .legal (.set 0x1FFE 0xAB) := by decide
theorem test_decode_illegal : [0x00000000, 0xFFFFFFFF, 0xB0000000].all
    (fun w => decode w == .illegal .unassignedOpcode) = true := by decide
theorem test_decode_reserved : [0x10000100, 0x30000010, 0x70000001, 0x90010000].all
    (fun w => decode w == .illegal .reservedBitSet) = true := by decide
theorem test_table_word : decodeTableWord 32 0x80FF0000 = some (.write 0xFF) := by decide

/-! ### Assembly text (R76, R77; P1, P2) -/

theorem test_asm_text : assembleText defaultConfig
    ["; the sign byte of -5", "DECOMP.S -5", "  SEG.ENCODE 5, 0,0, 1 ; encode", "SETIMG 1, 3, 0xFB, 0x02", "READ"] =
    .ok [0x200000FB, 0x50001005, 0xA00283FB, 0x70000000] := by decide
theorem test_asm_errors :
    assembleText defaultConfig ["SEG.DIGIT 16"] = .error .operandOutOfRange ∧
    assembleText defaultConfig ["JUMP 1"] = .error .unknownMnemonic ∧
    assembleText defaultConfig ["SET 1"] = .error .wrongOperandCount ∧
    assembleText defaultConfig ["SEQ 0xZZ"] = .error .badNumber := by decide

/-! ### One step of each command (`95_test_vectors.md`) -/

-- L2.1
theorem test_decompU_255 : holdsNext (exec (.decompU 255) State.reset)
    (fun t => t.res == some 0x255 && t.pc == 1 && t.trace == []) = true := by decide
theorem test_decompU_128 : holdsNext (exec (.decompU 0x80) State.reset) (fun t => t.res == some 0x128) = true := by
  decide
-- L2.2
theorem test_decompS_minus_128 : holdsNext (exec (.decompS 0x80) State.reset)
    (fun t => t.res == some 0x1128) = true := by decide
theorem test_decompS_zero : holdsNext (exec (.decompS 0) State.reset)
    (fun t => t.res == some 0 && t.res.all (fun r => !signFlag r)) = true := by decide
-- L2.3
theorem test_segDigit_5 : holdsNext (exec (.segDigit 5) State.reset) (fun t => t.res == some 0x4F) = true := by
  decide
theorem test_segDigit_10_faults : holdsNext (exec (.segDigit 10) State.reset) (fun t =>
    t.fault == some ⟨.segIndexOutOfRange, 0, 0x3000000A, .digit .d 10⟩ && t.pc == 0 && t.res == none) = true := by
  decide
-- L2.4
theorem test_segSign_minus : holdsNext (exec (.segSign true) State.reset) (fun t => t.res == some 2) = true := by
  decide
theorem test_segSign_plus : holdsNext (exec (.segSign false) State.reset) (fun t => t.res == some 0) = true := by
  decide
-- L2.5
theorem test_segEncode_minus_128 : holdsNext (exec (.segEncode 8 2 1 true) State.reset)
    (fun t => t.res == some 0x0250377F) = true := by decide
theorem test_segEncode_first_bad : holdsNext (exec (.segEncode 0 11 15 true) State.reset)
    (fun t => t.fault == some ⟨.segIndexOutOfRange, 0, 0x50001FB0, .digit .tens 11⟩) = true := by decide
-- L2.6: the first, the second and the last events of the trace of SEQ 0x0105
theorem test_seq_latches : holdsNext (exec (.seq 0x0105) State.reset) (fun t =>
    t.la == some 0x105 && t.qLo == some 0x05 && t.qHi == some 0x01 && t.trace.length == 34 &&
    t.trace.take 8 == [.drive .addrSerLo .high, .drive .addrSerHi .high, .drive .addrClk .high,
      .drive .addrClk .low, .drive .addrSerLo .low, .drive .addrSerHi .low, .drive .addrClk .high,
      .drive .addrClk .low]) = true := by decide
theorem test_seq_masks : holdsNext (exec (.seq 0xFFFF) State.reset) (fun t =>
    t.la == some 0x1FFF && t.pins.addrSerHi.drive == some .low && t.pins.addrSerLo.drive == some .high) = true := by
  decide
-- L2.7
theorem test_write_stores : holdsNext (exec (.write 0x7D) latched) (fun t =>
    t.mem == [(0x105, 0x7D)] && t.busdir == some .output && t.res == none &&
    t.trace.drop 8 == [.drive (.d 0) .high, .drive (.d 1) .low, .drive (.d 2) .high, .drive (.d 3) .high,
      .drive (.d 4) .high, .drive (.d 5) .high, .drive (.d 6) .high, .drive (.d 7) .low,
      .drive .weN .low, .drive .weN .high]) = true := by decide
theorem test_write_without_address : holdsNext (exec (.write 0x11) State.reset) (fun t =>
    t.fault == some ⟨.unknownAddressWrite, 0, 0x80110000, .none⟩ && t.trace == [] && t.mem == []) = true := by decide
theorem test_read_returns : holdsNext (exec .read { latched with mem := [(0x105, 0x7D)] }) (fun t =>
    t.res == some 0x7D && t.busdir == some .input && t.draws == 0 &&
    t.trace.drop 8 == [.drive .oeN .low, .sample (.d 0) .high, .sample (.d 1) .low, .sample (.d 2) .high,
      .sample (.d 3) .high, .sample (.d 4) .high, .sample (.d 5) .high, .sample (.d 6) .high,
      .sample (.d 7) .low, .drive .oeN .high]) = true := by decide
theorem test_read_unknown_takes_a_draw : holdsNext (exec .read State.reset) (fun t =>
    t.draws == 1 && t.trace.length == 18 && t.mem == []) = true := by decide
-- L1.9
theorem test_get_aliases : holdsNext (exec (.get 0x9FFF) { State.reset with mem := [(0x1FFF, 0xAB)] })
    (fun t => t.res == some 0xAB && t.trace.length == 52 && t.la == some 0x1FFF) = true := by decide
theorem test_set_aliases : holdsNext (exec (.set 0x9FFF 0xCD) { State.reset with mem := [(0x1FFF, 0xAB)] })
    (fun t => t.mem == [(0x1FFF, 0xCD)] && t.trace.length == 52 && t.pc == 1) = true := by decide
-- L2.9, L2.10, R150, R169
theorem test_step_illegal : holdsNext (step (start [0x0])) (fun t =>
    t.fault == some ⟨.illegalCommand, 0, 0, .none⟩ && t.pc == 0) = true := by decide
theorem test_step_places_word : holdsNext (step (State.reset.withFetchWord 32 0x100000FF))
    (fun t => t.res == some 0x255) = true := by decide
-- R101: shapes and bytes
theorem test_segments_of_digit_4 : litSegments defaultSegBitOrder 0x5A =
    [.middle, .topLeft, .topRight, .bottomRight] := by decide
-- R24
theorem test_physical_pins_distinct :
    ((Pin.addrClk :: .addrSerLo :: .addrSerHi :: .oeN :: .weN :: bitLines.map Pin.d).map
      (physicalPin defaultConfig)).Nodup := by decide

/-! ### Witnesses: states and operands that meet each statement's hypotheses together -/

theorem witness_EncodeOfDecodedWord : ∃ w i, decode w = .legal i := ⟨0x100000FF, .decompU 255, by decide⟩

theorem witness_OpcodeRowsDoNotOverlap : ∃ w, ∃ r ∈ opcodeRows, ∃ q ∈ opcodeRows,
    r.selects w = true ∧ q.selects w = true :=
  ⟨0x100000FF, _, List.mem_cons_self, _, List.mem_cons_self, by decide, by decide⟩

theorem witness_AssemblerWritesTheFormsWord :
    (AsmCmd.decompS (-128)).wellFormed = true ∧ (AsmCmd.set 0xFFFF 255).wellFormed = true ∧
    (AsmCmd.decompS (-129)).wellFormed = false ∧ (AsmCmd.seq 0x10000).wellFormed = false := by decide

theorem witness_StepRunsTheDecodedCommand : ∃ s w i, State.fault s = none ∧ fetch s = some w ∧ decode w = .legal i :=
  ⟨start [0xA0AB1FFF], 0xA0AB1FFF, .set 0x1FFF 0xAB, by decide, by decide, by decide⟩

theorem witness_IllegalWordRaisesIllegalCommand : ∃ s w, State.fault s = none ∧ fetch s = some w ∧
    wordWellFormed w = false := ⟨start [0x70000001], 0x70000001, by decide, by decide, by decide⟩

theorem witness_StepStopsOnlyAfterFaultOrAtTheEnd :
    (∃ s, State.fault s ≠ none) ∧ (∃ s, State.fault s = none ∧ (State.program s).length ≤ s.pc) ∧
    (∃ s, State.fault s = none ∧ s.pc < (State.program s).length) :=
  ⟨⟨State.reset.raise .illegalCommand 0 .none, by decide⟩, ⟨State.reset, by decide, by decide⟩,
    ⟨start [0x70000000], by decide, by decide⟩⟩

theorem witness_BoundaryMayEndTheWriteCycle :
    State.reset.config.writeCycleModel = .ideal ∧ State.reset.wip = false ∧
    (conservative true).config.writeCycleModel = .conservative ∧ (conservative true).wip = true := by decide

theorem witness_DecomposeGivesDecimalDigits : (255 ≤ 255) ∧ (128 ≤ 255 ∧ 128 ≤ 128) := by decide

theorem witness_SegDigitLooksUpTheTable : (9 : Digit).toNat < 10 ∧ (0 : Digit).toNat < 10 := by decide

theorem witness_SegDigitOutOfRangeFaults : 9 < (10 : Digit).toNat ∧ 9 < (15 : Digit).toNat := by decide

theorem witness_SegEncodePacksFourPatterns :
    (9 : Digit).toNat < 10 ∧ (0 : Digit).toNat < 10 ∧ (9 : Digit).toNat < 10 := by decide

theorem witness_SegEncodeRecordsTheFirstBadDigit :
    (9 < (10 : Digit).toNat) ∧ ((9 : Digit).toNat ≤ 9 ∧ 9 < (10 : Digit).toNat) ∧
    ((9 : Digit).toNat ≤ 9 ∧ (9 : Digit).toNat ≤ 9 ∧ 9 < (10 : Digit).toNat) := by decide

theorem witness_SegEncodeAgreesWithSingleLookups :
    (9 : Digit).toNat ≤ 9 ∧ (0 : Digit).toNat ≤ 9 ∧ (5 : Digit).toNat ≤ 9 := by decide

theorem witness_DecomposedTriplesEncode :
    (∃ (v : Byte) (i : Instr), i = .decompU v) ∧ (∃ (v : Byte) (i : Instr), i = .decompS v) :=
  ⟨⟨0, _, rfl⟩, ⟨0x80, _, rfl⟩⟩

theorem witness_SeqLatchesTheMaskedAddress :
    State.reset.config.stageMap = defaultStageMap ∧ State.reset.config.clkPulse = .highThenLow := by decide

theorem witness_ReadReturnsTheAddressedByte :
    State.reset.pins.oeN.mode = some .output ∧ State.reset.pins.weN = ⟨some .output, some .high⟩ := by decide

theorem witness_WriteStoresAtTheLatchedAddress :
    State.reset.la = none ∧
    (latched.la = some 0x105 ∧ latched.config.writeCycleModel = .ideal) ∧
    ((conservative false).la = some 0x105 ∧ (conservative false).config.writeCycleModel = .conservative ∧
      (conservative false).wip = false) ∧
    ((conservative true).la = some 0x105 ∧ (conservative true).config.writeCycleModel = .conservative ∧
      (conservative true).wip = true) := by decide

theorem witness_StoreChangesExactlyOneCell : memWf [(3, 7)] = true ∧ 8191 < eepromSize := by decide

theorem witness_CanonicalMemoriesReadingAlikeAreEqual : ∃ m n : List Host.Cell, m ≠ [] ∧ memWf m = true ∧
    memWf n = true ∧ ∀ x, memCell m x = memCell n x :=
  ⟨[(0, 1), (8191, 2)], [(0, 1), (8191, 2)], by decide, by decide, by decide, fun _ => rfl⟩

theorem witness_GetReadsTheMaskedAddress :
    State.reset.config.stageMap = defaultStageMap ∧ State.reset.config.clkPulse = .highThenLow ∧
    State.reset.pins.oeN.mode = some .output ∧ State.reset.pins.weN = ⟨some .output, some .high⟩ := by decide

theorem witness_SetWritesTheMaskedAddress :
    (latched.config.stageMap = defaultStageMap ∧ latched.config.clkPulse = .highThenLow ∧
      latched.config.writeCycleModel = .ideal) ∧
    ((conservative false).config.stageMap = defaultStageMap ∧ (conservative false).config.clkPulse = .highThenLow ∧
      (conservative false).config.writeCycleModel = .conservative ∧ (conservative false).wip = false) ∧
    ((conservative true).config.stageMap = defaultStageMap ∧ (conservative true).config.clkPulse = .highThenLow ∧
      (conservative true).config.writeCycleModel = .conservative ∧ (conservative true).wip = true) := by decide

/-- The two-command run of `SetThenGetReturnsTheByte`: `SET 0x9FFF, 0xCD`, `GET 0x1FFF` (L1.9). -/
def setGet : State := start [0xA0CD9FFF, 0x90001FFF]

theorem inv_setGet : Inv setGet where
  mem := by decide
  control := ⟨by decide, by decide, by decide, by decide, by decide, by decide, by decide, by decide⟩
  bus := .inl (by decide)
  latch := .inl (by decide)
  stages := by decide
  wipIdeal := by decide
  unlatched := by decide
  pcInSequence := by decide
  record := fun r h => by cases h

theorem witness_SetThenGetReturnsTheByte : ∃ (s : State) (a a' : LogicalAddr) (b : Byte), Inv s ∧ s.fault = none ∧
    s.config.writeCycleModel = .ideal ∧ a.toNat % 0x2000 = a'.toNat % 0x2000 ∧
    s.program[s.pc]? = some (encode (.set a b)) ∧ s.program[s.pc + 1]? = some (encode (.get a')) :=
  ⟨setGet, 0x9FFF, 0x1FFF, 0xCD, inv_setGet, by decide, by decide, by decide, by decide, by decide⟩

theorem witness_BusDirectionAfterEachCommand :
    (∃ t, exec .read latched = .next t) ∧ (∃ t, exec (.get 0) latched = .next t) ∧
    (latched.la ≠ none ∧ ∃ t, exec (.write 0xFF) latched = .next t) ∧
    (∃ t, exec (.set 0 0) latched = .next t) ∧ (∃ t, exec (.seq 0) latched = .next t) :=
  ⟨⟨_, rfl⟩, ⟨_, rfl⟩, ⟨by decide, _, rfl⟩, ⟨_, rfl⟩, ⟨_, rfl⟩⟩

theorem step_setGet : ∃ t, step setGet = .next t ∧
    (t.fault == none && memCell t.mem 0x1FFF != memCell setGet.mem 0x1FFF) = true :=
  exists_next (p := fun t => t.fault == none && memCell t.mem 0x1FFF != memCell setGet.mem 0x1FFF) (by decide)

/-- A boundary state and its next state: for every statement about a step from the invariant. -/
theorem witness_EveryStepKeepsTheInvariant : ∃ s t, Inv s ∧ step s = .next t :=
  let ⟨t, h, _⟩ := step_setGet
  ⟨setGet, t, inv_setGet, h⟩

theorem witness_EveryStepUsesThePinsInOrder : ∃ s t, Inv s ∧ step s = .next t :=
  witness_EveryStepKeepsTheInvariant

theorem witness_TraceAccountsForThePins : ∃ s t, step s = .next t ∧ s.pins = resetPins.replay s.trace :=
  let ⟨t, h, _⟩ := step_setGet
  ⟨setGet, t, h, by decide⟩

theorem witness_StepsKeepParametersAndSequence : ∃ s t, step s = .next t :=
  let ⟨t, h, _⟩ := step_setGet
  ⟨setGet, t, h⟩

theorem witness_OnlyStoresChangeACell : ∃ s t x, step s = .next t ∧ memCell t.mem x ≠ memCell s.mem x := by
  obtain ⟨t, h, hp⟩ := step_setGet
  refine ⟨setGet, t, 0x1FFF, h, ?_⟩
  simp only [Bool.and_eq_true, bne_iff_ne] at hp
  exact hp.2

theorem step_faults : ∃ t, step (start [0x3000000C]) = .next t ∧ (t.fault != none) = true :=
  exists_next (p := fun t => t.fault != none) (by decide)

theorem witness_StepMakesTheCommandsNumberOfEvents :
    (∃ s t, step s = .next t ∧ t.fault = none) ∧ (∃ s t, step s = .next t ∧ t.fault ≠ none) := by
  obtain ⟨t, h, hp⟩ := step_setGet
  obtain ⟨u, hu, hq⟩ := step_faults
  refine ⟨⟨setGet, t, h, ?_⟩, ⟨start [0x3000000C], u, hu, by simpa using hq⟩⟩
  simp only [Bool.and_eq_true, beq_iff_eq] at hp
  exact hp.1

theorem witness_PcAdvancesByOneUnlessFault :
    (∃ s t, step s = .next t ∧ t.fault = none) ∧ (∃ s t, step s = .next t ∧ t.fault ≠ none) :=
  witness_StepMakesTheCommandsNumberOfEvents

theorem witness_FaultsArePrecise : ∃ s t, step s = .next t ∧ t.fault ≠ none := witness_StepMakesTheCommandsNumberOfEvents.2

theorem witness_CommandsFaultExactlyWhenTheSpecSays : State.reset.fault = none := by decide

theorem witness_EveryRunEnds : State.pc setGet ≤ setGet.program.length := by decide

theorem witness_ImageEntriesAlias : defaultConfig.imageSignBit = 15 := by decide

end Sys2Proof.Tests
end

section
/-! PROOFS. The decomposer (`40_decomposer.md`): the row a word selects, the digits and the packed triple, and what
DECOMP.U and DECOMP.S do. -/

namespace Sys2Proof.Proofs

open Sys2Proof.Machine

/-! ### A word decodes to the row that selects it -/

/-- Every mask covers the opcode, so a row selects only words with the opcode of its pattern (R72). -/
theorem opcode_eq_of_selects {r : OpcodeRow} {w : Word} (hr : r ∈ opcodeRows) (hs : r.selects w = true) :
    w.extractLsb' 28 4 = r.pattern.extractLsb' 28 4 := by
  have hmask : ∀ q ∈ opcodeRows, q.mask.extractLsb' 28 4 = 0xF#4 := by simp [opcodeRows]
  by_contra hne
  have hfalse : r.selects w = false := masked_ne_of_opcode_ne hne (hmask r hr)
  simp [hfalse] at hs

/-- No two rows share an opcode (R72). -/
theorem opcodeRows_opcodes_nodup : (opcodeRows.map fun r => r.pattern.extractLsb' 28 4).Nodup := by decide

/-- The row that selects a word is the one the decoder finds: another row has another opcode. -/
theorem decode_of_selects {r : OpcodeRow} {w : Word} (hr : r ∈ opcodeRows) (hs : r.selects w = true) :
    decode w = .legal (r.fields w) := by
  cases hd : decode w with
  | illegal k => simp [(decode_illegal_row hd).2 r hr] at hs
  | legal i =>
    obtain ⟨q, hq, hqs, rfl⟩ := decode_legal_row hd
    have hop := (opcode_eq_of_selects hq hqs).symm.trans (opcode_eq_of_selects hr hs)
    rw [List.inj_on_of_nodup_map opcodeRows_opcodes_nodup hq hr hop]

/-! ### The words of DECOMP.U and DECOMP.S: format V (R71) -/

/-- A format V word: the opcode, 20 reserved zeros, the value. -/
theorem formatV_eq_ofNat (op : BitVec 4) (v : Byte) :
    op ++ 0#20 ++ v = BitVec.ofNat 32 (op.toNat * 2 ^ 28 + v.toNat) := by
  have hop := op.isLt
  have hv := v.isLt
  apply BitVec.eq_of_toNat_eq
  rw [BitVec.toNat_append, BitVec.toNat_append, ← Nat.shiftLeft_add_eq_or_of_lt hv]
  simp only [BitVec.toNat_ofNat, Nat.zero_mod, Nat.or_zero, Nat.shiftLeft_eq]
  omega

/-- The mask of format V keeps the opcode and the reserved bits. -/
theorem formatV_masked (op : BitVec 4) (v : Byte) :
    (op ++ 0#20 ++ v) &&& 0xFFFFFF00#32 = op ++ 0#28 := by
  apply BitVec.eq_of_getLsbD_eq
  intro k hk
  simp only [BitVec.getLsbD_and, BitVec.getLsbD_append]
  interval_cases k <;> simp

theorem formatV_value (op : BitVec 4) (v : Byte) : (op ++ 0#20 ++ v).extractLsb' 0 8 = v := by
  apply BitVec.eq_of_getLsbD_eq
  intro k hk
  rw [BitVec.getLsbD_extractLsb', BitVec.getLsbD_append]
  simp [hk]

theorem decode_encode_decompU (v : Byte) : decode (encode (.decompU v)) = .legal (.decompU v) := by
  have hs : opcodeRows[0].selects (encode (.decompU v)) = true := beq_iff_eq.mpr (formatV_masked 0x1#4 v)
  have hv : opcodeRows[0].fields (encode (.decompU v)) = .decompU v :=
    congrArg Instr.decompU (formatV_value 0x1#4 v)
  rw [decode_of_selects (List.getElem_mem _) hs, hv]

theorem decode_encode_decompS (v : Byte) : decode (encode (.decompS v)) = .legal (.decompS v) := by
  have hs : opcodeRows[1].selects (encode (.decompS v)) = true := beq_iff_eq.mpr (formatV_masked 0x2#4 v)
  have hv : opcodeRows[1].fields (encode (.decompS v)) = .decompS v :=
    congrArg Instr.decompS (formatV_value 0x2#4 v)
  rw [decode_of_selects (List.getElem_mem _) hs, hv]

/-! ### The digits and the packed triple -/

@[simp] theorem decompose_ones (m : Nat) (sign : Bool) : (decompose m sign).ones.toNat = m % 10 := by
  simp only [decompose, BitVec.toNat_ofNat]
  omega

@[simp] theorem decompose_tens (m : Nat) (sign : Bool) : (decompose m sign).tens.toNat = m / 10 % 10 := by
  simp only [decompose, BitVec.toNat_ofNat]
  omega

@[simp] theorem decompose_hundreds (m : Nat) (sign : Bool) :
    (decompose m sign).hundreds.toNat = m / 100 % 10 := by
  simp only [decompose, BitVec.toNat_ofNat]
  omega

@[simp] theorem decompose_sign (m : Nat) (sign : Bool) : (decompose m sign).sign = sign := rfl

/-- The packed triple as a number: a digit in each of the three low nibbles, the sign in bit 12 (R68). -/
theorem packTriple_toNat (t : DigitTriple) : (packTriple t).toNat =
    t.ones.toNat + 16 * t.tens.toNat + 256 * t.hundreds.toNat + 4096 * t.sign.toNat := by
  have ho := t.ones.isLt
  have ht := t.tens.isLt
  have hh := t.hundreds.isLt
  have hs := (BitVec.ofBool t.sign).isLt
  simp only [packTriple, BitVec.toNat_append]
  rw [← Nat.shiftLeft_add_eq_or_of_lt ho, ← Nat.shiftLeft_add_eq_or_of_lt ht,
    ← Nat.shiftLeft_add_eq_or_of_lt hh, ← Nat.shiftLeft_add_eq_or_of_lt hs]
  simp only [Nat.shiftLeft_eq, BitVec.toNat_ofNat, BitVec.toNat_ofBool]
  omega

/-- The result word of a decomposition (R92, R93). -/
theorem packTriple_decompose (m : Nat) (sign : Bool) : packTriple (decompose m sign) =
    BitVec.ofNat 32 (m % 10 + 16 * (m / 10 % 10) + 256 * (m / 100 % 10) + 4096 * sign.toNat) := by
  have hs := sign.toNat_le
  apply BitVec.eq_of_toNat_eq
  rw [packTriple_toNat, BitVec.toNat_ofNat, Nat.mod_eq_of_lt (by omega)]
  simp

/-! ### The sign and the magnitude of a two's-complement value -/

/-- A byte is negative exactly if its bit 7 is set (R91). -/
theorem signOf_eq (v : Byte) : signOf v = decide (128 ≤ v.toNat) := by
  have h : v.toInt < 0 ↔ 128 ≤ v.toNat := by
    rw [BitVec.toInt_eq_toNat_cond]
    split <;> omega
  simp [signOf, h]

/-- The magnitude does not overflow: 0x80 gives 128 (R91). -/
theorem signedMagnitude_eq (v : Byte) :
    signedMagnitude v = if v.toNat < 128 then v.toNat else 256 - v.toNat := by
  have hv := v.isLt
  rw [signedMagnitude, signOf_eq, BitVec.toInt_eq_toNat_cond]
  simp only [decide_eq_true_eq]
  split_ifs <;> omega

/-! ### What the two commands do -/

theorem exec_decompU (v : Byte) (s : State) : exec (.decompU v) s =
    .next { s with res := some (packTriple (decompose v.toNat false)), pc := s.pc + 1 } := rfl

theorem exec_decompS (v : Byte) (s : State) : exec (.decompS v) s =
    .next { s with res := some (packTriple (decompose (signedMagnitude v) (signOf v))), pc := s.pc + 1 } := rfl

/-! ### The obligations -/

/-- Settles O12: each digit is the remainder of R92, and the bounds are arithmetic. -/
theorem decomposeGivesDecimalDigits : Obligations.DecomposeGivesDecimalDigits := by
  intro m sign hm
  simp only [decompose_ones, decompose_tens, decompose_hundreds, true_and]
  omega

/-- Settles O13: the result is the packed triple of the value itself, with sign 0. -/
theorem decompUPacksTheUnsignedDigits : Obligations.DecompUPacksTheUnsignedDigits := by
  intro v s
  have hword : BitVec.ofNat 32 (0x10000000 + v.toNat) = encode (.decompU v) := (formatV_eq_ofNat 0x1#4 v).symm
  refine ⟨hword ▸ decode_encode_decompU v, ?_⟩
  rw [exec_decompU, packTriple_decompose]
  rfl

/-- Settles O14: the result is the packed triple of the magnitude, with bit 7 of the value as the sign. -/
theorem decompSPacksTheSignedDigits : Obligations.DecompSPacksTheSignedDigits := by
  intro v s m
  have hword : BitVec.ofNat 32 (0x20000000 + v.toNat) = encode (.decompS v) := (formatV_eq_ofNat 0x2#4 v).symm
  have hsign : 4096 * (signOf v).toNat = if v.toNat < 128 then 0 else 4096 := by
    by_cases h : v.toNat < 128
    · simp [signOf_eq, h, Nat.not_le.mpr h]
    · simp [signOf_eq, h, Nat.not_lt.mp h]
  refine ⟨hword ▸ decode_encode_decompS v, ?_⟩
  rw [exec_decompS, packTriple_decompose, signedMagnitude_eq, hsign]

end Sys2Proof.Proofs
end

section
/-! PROOFS. The segment encoder (`41_segment_encoder.md`): the word of SEG.SIGN and what it does. -/

namespace Sys2Proof.Proofs

open Sys2Proof.Machine

/-! ### The word of SEG.SIGN: format S (R71) -/

theorem encode_segSign (neg : Bool) :
    encode (.segSign neg) = if neg then 0x40000001#32 else 0x40000000#32 := by
  cases neg <;> rfl

theorem decode_encode_segSign (neg : Bool) : decode (encode (.segSign neg)) = .legal (.segSign neg) := by
  have hs : opcodeRows[3].selects (encode (.segSign neg)) = true := by cases neg <;> rfl
  have hv : opcodeRows[3].fields (encode (.segSign neg)) = .segSign neg := by cases neg <;> rfl
  rw [decode_of_selects (List.getElem_mem _) hs, hv]

/-! ### A pattern as a result -/

/-- Zero extension keeps the number (R11). -/
theorem zext32_eq_ofNat (b : Byte) : zext32 b = BitVec.ofNat 32 b.toNat := by
  have hb := b.isLt
  apply BitVec.eq_of_toNat_eq
  simp only [zext32, BitVec.toNat_append, BitVec.toNat_ofNat, Nat.zero_mod, Nat.zero_shiftLeft, Nat.zero_or]
  omega

theorem signPattern_toNat (c : Config) (neg : Bool) :
    (signPattern c neg).toNat = if neg then c.segTable.midBar.toNat else c.segTable.blank.toNat :=
  apply_ite BitVec.toNat _ _ _

/-! ### What the command does -/

theorem exec_segSign (neg : Bool) (s : State) : exec (.segSign neg) s =
    .next { s with res := some (zext32 (signPattern s.config neg)), pc := s.pc + 1 } := rfl

/-! ### The obligation -/

/-- Settles O18: the word is the encoding, and the result is the zero-extended sign pattern, for every table. -/
theorem segSignSelectsMidBarOrBlank : Obligations.SegSignSelectsMidBarOrBlank := by
  intro neg s
  refine ⟨encode_segSign neg ▸ decode_encode_segSign neg, ?_⟩
  rw [exec_segSign, zext32_eq_ofNat, signPattern_toNat]

end Sys2Proof.Proofs
end

section
/-! PROOFS. The address sequencer (`42_address_sequencer.md`): the word of SEQ, the two bytes it latches, its 34 events
and what it does. -/

namespace Sys2Proof.Proofs

open Sys2Proof.Machine

/-! ### The word of SEQ: format A (R71) -/

/-- A format A word: the opcode, 12 reserved zeros, the address. -/
theorem formatA_eq_ofNat (op : BitVec 4) (addr : LogicalAddr) :
    op ++ 0#12 ++ addr = BitVec.ofNat 32 (op.toNat * 2 ^ 28 + addr.toNat) := by
  have hop := op.isLt
  have haddr := addr.isLt
  apply BitVec.eq_of_toNat_eq
  rw [BitVec.toNat_append, BitVec.toNat_append, ← Nat.shiftLeft_add_eq_or_of_lt haddr]
  simp only [BitVec.toNat_ofNat, Nat.zero_mod, Nat.or_zero, Nat.shiftLeft_eq]
  omega

/-- The mask of format A keeps the opcode and the reserved bits. -/
theorem formatA_masked (op : BitVec 4) (addr : LogicalAddr) :
    (op ++ 0#12 ++ addr) &&& 0xFFFF0000#32 = op ++ 0#28 := by
  apply BitVec.eq_of_getLsbD_eq
  intro k hk
  simp only [BitVec.getLsbD_and, BitVec.getLsbD_append]
  interval_cases k <;> simp

theorem formatA_address (op : BitVec 4) (addr : LogicalAddr) :
    (op ++ 0#12 ++ addr).extractLsb' 0 16 = addr := by
  apply BitVec.eq_of_getLsbD_eq
  intro k hk
  rw [BitVec.getLsbD_extractLsb', BitVec.getLsbD_append]
  simp [hk]

theorem decode_encode_seq (addr : LogicalAddr) : decode (encode (.seq addr)) = .legal (.seq addr) := by
  have hs : opcodeRows[5].selects (encode (.seq addr)) = true := beq_iff_eq.mpr (formatA_masked 0x6#4 addr)
  have ha : opcodeRows[5].fields (encode (.seq addr)) = .seq addr :=
    congrArg Instr.seq (formatA_address 0x6#4 addr)
  rw [decode_of_selects (List.getElem_mem _) hs, ha]

/-! ### The masked address and its two bytes, as numbers (R46, R51) -/

@[simp] theorem maskedAddr_toNat (addr : LogicalAddr) : (maskedAddr addr).toNat = addr.toNat % 0x2000 := by
  simp [maskedAddr]

@[simp] theorem lowByte_toNat (a : CellAddr) : (lowByte a).toNat = a.toNat % 256 := by
  simp [lowByte]

@[simp] theorem highByte_toNat (a : CellAddr) : (highByte a).toNat = a.toNat / 256 := by
  have ha := a.isLt
  simp only [highByte, BitVec.toNat_append, BitVec.extractLsb'_toNat, BitVec.toNat_ofNat, Nat.shiftRight_eq_div_pow,
    Nat.zero_mod, Nat.zero_shiftLeft, Nat.zero_or]
  omega

theorem maskedAddr_eq_ofNat (addr : LogicalAddr) : maskedAddr addr = BitVec.ofNat 13 (addr.toNat % 0x2000) := by
  apply BitVec.eq_of_toNat_eq
  rw [maskedAddr_toNat, BitVec.toNat_ofNat]
  omega

theorem lowByte_maskedAddr (addr : LogicalAddr) :
    lowByte (maskedAddr addr) = BitVec.ofNat 8 (addr.toNat % 0x2000) := by
  apply BitVec.eq_of_toNat_eq
  rw [lowByte_toNat, maskedAddr_toNat, BitVec.toNat_ofNat]

theorem highByte_maskedAddr (addr : LogicalAddr) :
    highByte (maskedAddr addr) = BitVec.ofNat 8 (addr.toNat % 0x2000 / 256) := by
  apply BitVec.eq_of_toNat_eq
  rw [highByte_toNat, maskedAddr_toNat, BitVec.toNat_ofNat]
  omega

/-- Under the default wiring the EEPROM sees the masked address (R29, R117). -/
theorem latchedAddr_default {c : Config} (h : c.stageMap = defaultStageMap) (addr : LogicalAddr) :
    latchedAddr c addr = maskedAddr addr := by
  rw [latchedAddr, h, wiredAddr_default]

/-! ### The bits on the serial lines (R116) -/

/-- Masking keeps bits 12:0 (R46). -/
theorem maskedAddr_bit (addr : LogicalAddr) (i : Nat) :
    (maskedAddr addr).getLsbD i = (decide (i < 13) && addr.getLsbD i) := by
  rw [maskedAddr, BitVec.getLsbD_extractLsb', Nat.zero_add]

/-- ADDR_SER_LO carries the address's own bit `k` at shift step `k`. -/
theorem serLo_bit (addr : LogicalAddr) {k : Nat} (hk : k < 8) :
    (lowByte (maskedAddr addr)).getLsbD k = addr.getLsbD k := by
  have h13 : k < 13 := by omega
  rw [lowByte_bit, maskedAddr_bit]
  simp [hk, h13]

/-- ADDR_SER_HI carries bit `8 + k` at the first five shift steps and 0 at the last three (R119). -/
theorem serHi_bit (addr : LogicalAddr) (k : Nat) :
    (highByte (maskedAddr addr)).getLsbD k = (decide (k < 5) && addr.getLsbD (8 + k)) := by
  rw [highByte_bit, maskedAddr_bit]
  by_cases hk : k < 5
  · have h13 : 8 + k < 13 := by omega
    simp [hk, h13]
  · simp [hk]

/-! ### The 34 events under the default CLK_PULSE (R115, R118) -/

theorem clockEvents_default {c : Config} (h : c.clkPulse = .highThenLow) :
    clockEvents c = [.drive .addrClk .high, .drive .addrClk .low] := by
  rw [clockEvents, h]
  rfl

theorem shiftEvents_default {c : Config} (h : c.clkPulse = .highThenLow) (addr : LogicalAddr) (k : Fin 8) :
    shiftEvents c (lowByte (maskedAddr addr)) (highByte (maskedAddr addr)) k =
      [.drive .addrSerLo (if addr.getLsbD k.val then .high else .low),
       .drive .addrSerHi (if k.val < 5 && addr.getLsbD (8 + k.val) then .high else .low),
       .drive .addrClk .high, .drive .addrClk .low] := by
  rw [shiftEvents, clockEvents_default h, serLo_bit addr k.isLt, serHi_bit]
  rfl

theorem sequenceEvents_default {c : Config} (h : c.clkPulse = .highThenLow) (addr : LogicalAddr) :
    sequenceEvents c addr =
      ([0, 1, 2, 3, 4, 5, 6, 7].flatMap fun k : Nat =>
        [.drive .addrSerLo (if addr.getLsbD k then .high else .low),
         .drive .addrSerHi (if k < 5 && addr.getLsbD (8 + k) then .high else .low),
         .drive .addrClk .high, .drive .addrClk .low]) ++
      [.drive .addrClk .high, .drive .addrClk .low] := by
  rw [sequenceEvents, funext (shiftEvents_default h addr), clockEvents_default h]
  rfl

/-! ### What the command does -/

/-- SEQ is one sequence under every wiring and every CLK_PULSE; then `pc` advances (R115). -/
theorem exec_seq (addr : LogicalAddr) (s : State) :
    exec (.seq addr) s = .next { s with
      pins := s.pins.replay (sequenceEvents s.config addr)
      trace := s.trace ++ sequenceEvents s.config addr
      srLo := none, srHi := none
      qLo := some (lowByte (maskedAddr addr)), qHi := some (highByte (maskedAddr addr))
      la := some (latchedAddr s.config addr)
      pc := s.pc + 1 } := by
  have harm : exec (.seq addr) s = .next (sequenceAddr addr s).advance := rfl
  rw [harm, sequenceAddr_spec]
  rfl

/-! ### The obligation -/

/-- Settles O23: the word is the encoding, the latch holds the two bytes of the masked address, and the pins are those
after the sequence's events. -/
theorem seqLatchesTheMaskedAddress : Obligations.SeqLatchesTheMaskedAddress := by
  intro addr s hmap hclk
  have hword : BitVec.ofNat 32 (0x60000000 + addr.toNat) = encode (.seq addr) := (formatA_eq_ofNat 0x6#4 addr).symm
  refine ⟨hword ▸ decode_encode_seq addr, ?_⟩
  rw [exec_seq, replay_sequenceEvents, sequenceEvents_default hclk, latchedAddr_default hmap, hclk,
    lowByte_maskedAddr, highByte_maskedAddr, maskedAddr_eq_ofNat, ← List.append_assoc]
  rfl

end Sys2Proof.Proofs
end

section
/-! PROOFS. The memory port (`43_memory_port.md`): the words of READ, WRITE, GET and SET, the commit in both
write-cycle models, the two transactions between commands, and what the four commands do. -/

namespace Sys2Proof.Proofs

open Sys2Proof.Machine

/-! ### The words of WRITE and SET: formats B and AB (R71) -/

/-- A format AB word: the opcode, 4 reserved zeros, the byte, the address. Format B is the case of address 0. -/
theorem formatAB_eq_ofNat (op : BitVec 4) (b : Byte) (addr : LogicalAddr) :
    op ++ 0#4 ++ b ++ addr = BitVec.ofNat 32 (op.toNat * 2 ^ 28 + 65536 * b.toNat + addr.toNat) := by
  have hop := op.isLt
  have hb := b.isLt
  have haddr := addr.isLt
  apply BitVec.eq_of_toNat_eq
  rw [BitVec.toNat_append, BitVec.toNat_append, BitVec.toNat_append, ← Nat.shiftLeft_add_eq_or_of_lt haddr,
    ← Nat.shiftLeft_add_eq_or_of_lt hb]
  simp only [BitVec.toNat_ofNat, Nat.zero_mod, Nat.or_zero, Nat.shiftLeft_eq]
  omega

/-- The mask of format AB keeps the opcode and the reserved bits. -/
theorem formatAB_masked (op : BitVec 4) (b : Byte) (addr : LogicalAddr) :
    (op ++ 0#4 ++ b ++ addr) &&& 0xFF000000#32 = op ++ 0#28 := by
  apply BitVec.eq_of_getLsbD_eq
  intro k hk
  simp only [BitVec.getLsbD_and, BitVec.getLsbD_append]
  interval_cases k <;> simp

/-- The mask of format B keeps the low 16 bits too, which are reserved there. -/
theorem formatB_masked (op : BitVec 4) (b : Byte) :
    (op ++ 0#4 ++ b ++ 0#16) &&& 0xFF00FFFF#32 = op ++ 0#28 := by
  apply BitVec.eq_of_getLsbD_eq
  intro k hk
  simp only [BitVec.getLsbD_and, BitVec.getLsbD_append]
  interval_cases k <;> simp

theorem formatAB_byte (op : BitVec 4) (b : Byte) (addr : LogicalAddr) :
    (op ++ 0#4 ++ b ++ addr).extractLsb' 16 8 = b := by
  apply BitVec.eq_of_getLsbD_eq
  intro k hk
  rw [BitVec.getLsbD_extractLsb', BitVec.getLsbD_append, BitVec.getLsbD_append]
  simp [hk]

theorem formatAB_address (op : BitVec 4) (b : Byte) (addr : LogicalAddr) :
    (op ++ 0#4 ++ b ++ addr).extractLsb' 0 16 = addr := by
  apply BitVec.eq_of_getLsbD_eq
  intro k hk
  rw [BitVec.getLsbD_extractLsb', BitVec.getLsbD_append]
  simp [hk]

theorem encode_write (b : Byte) : encode (.write b) = BitVec.ofNat 32 (0x80000000 + 65536 * b.toNat) :=
  formatAB_eq_ofNat 0x8#4 b 0#16

theorem encode_get (addr : LogicalAddr) : encode (.get addr) = BitVec.ofNat 32 (0x90000000 + addr.toNat) :=
  formatA_eq_ofNat 0x9#4 addr

theorem encode_set (addr : LogicalAddr) (b : Byte) :
    encode (.set addr b) = BitVec.ofNat 32 (0xA0000000 + 65536 * b.toNat + addr.toNat) :=
  formatAB_eq_ofNat 0xA#4 b addr

theorem decode_encode_read : decode (encode .read) = .legal .read :=
  decode_of_selects (r := opcodeRows[6]) (List.getElem_mem _) rfl

theorem decode_encode_write (b : Byte) : decode (encode (.write b)) = .legal (.write b) := by
  have hs : opcodeRows[7].selects (encode (.write b)) = true := beq_iff_eq.mpr (formatB_masked 0x8#4 b)
  have hb : opcodeRows[7].fields (encode (.write b)) = .write b := congrArg Instr.write (formatAB_byte 0x8#4 b 0#16)
  rw [decode_of_selects (List.getElem_mem _) hs, hb]

theorem decode_encode_get (addr : LogicalAddr) : decode (encode (.get addr)) = .legal (.get addr) := by
  have hs : opcodeRows[8].selects (encode (.get addr)) = true := beq_iff_eq.mpr (formatA_masked 0x9#4 addr)
  have ha : opcodeRows[8].fields (encode (.get addr)) = .get addr :=
    congrArg Instr.get (formatA_address 0x9#4 addr)
  rw [decode_of_selects (List.getElem_mem _) hs, ha]

theorem decode_encode_set (addr : LogicalAddr) (b : Byte) :
    decode (encode (.set addr b)) = .legal (.set addr b) := by
  have hs : opcodeRows[9].selects (encode (.set addr b)) = true := beq_iff_eq.mpr (formatAB_masked 0xA#4 b addr)
  have hf : opcodeRows[9].fields (encode (.set addr b)) = .set addr b :=
    congrArg₂ Instr.set (formatAB_address 0xA#4 b addr) (formatAB_byte 0xA#4 b addr)
  rw [decode_of_selects (List.getElem_mem _) hs, hf]

/-! ### The commit in the conservative model (R138); `commitByte_ideal` is the ideal one -/

/-- With no write cycle in progress the byte is stored and a cycle begins. -/
theorem commitByte_idle {s : State} (hmodel : s.config.writeCycleModel = .conservative) (hwip : s.wip = false)
    (a : CellAddr) (b : Byte) : commitByte a b s = { memWrite a b s with wip := true } := by
  unfold commitByte
  simp [hmodel, hwip]

/-- During a write cycle one draw decides between the store and no store; the cycle goes on. -/
theorem commitByte_busy {s : State} (hmodel : s.config.writeCycleModel = .conservative) (hwip : s.wip = true)
    (a : CellAddr) (b : Byte) : commitByte a b s = { s with
      mem := if Config.draw 1 s.draws = 1#1 then memStore s.mem a.toNat b else s.mem
      draws := s.draws + 1 } := by
  unfold commitByte
  by_cases hdraw : Config.draw 1 s.draws = 1#1
  · simp [hmodel, hwip, hdraw, draw, memWrite]
  · simp [hmodel, hwip, hdraw, draw]

/-! ### The transactions (R132, R136) -/

/-- A read transaction between commands (R26): the addressed byte, and its 18 events. -/
theorem readTxn_atRest {s : State} (hoe : s.pins.oeN.mode = some .output)
    (hwe : s.pins.weN = ⟨some .output, some .high⟩) :
    readTxn s = (byteAt s s.la, { s with
      pins := pinsAfterRead s.pins
      trace := s.trace ++ readEvents (byteAt s s.la)
      draws := s.draws + drawsAt s s.la }) := by
  rw [readTxn_driven hoe hwe, deviceRead_byteAt, replay_readEvents]

/-- The state after the 18 events of a write transaction, where WE_N has risen and the commit is still to come. -/
def afterWriteEvents (b : Byte) (s : State) : State :=
  { s with pins := pinsAfterWrite s.pins b, trace := s.trace ++ writeEvents b }

@[simp] theorem afterWriteEvents_config (b : Byte) (s : State) : (afterWriteEvents b s).config = s.config := rfl
@[simp] theorem afterWriteEvents_wip (b : Byte) (s : State) : (afterWriteEvents b s).wip = s.wip := rfl

/-- A write transaction is the commit after its events. -/
theorem writeTxn_eq_commitByte (a : CellAddr) (b : Byte) (s : State) :
    writeTxn a b s = commitByte a b (afterWriteEvents b s) := by
  rw [writeTxn_spec, replay_writeEvents]
  rfl

/-- In the ideal model a write transaction stores the byte. -/
theorem writeTxn_ideal {s : State} (hmodel : s.config.writeCycleModel = .ideal) (a : CellAddr) (b : Byte) :
    writeTxn a b s = { afterWriteEvents b s with mem := memStore s.mem a.toNat b } := by
  rw [writeTxn_eq_commitByte, commitByte_ideal (by simpa using hmodel)]
  rfl

/-- In the conservative model, with no write cycle in progress, it stores the byte and begins a cycle. -/
theorem writeTxn_idle {s : State} (hmodel : s.config.writeCycleModel = .conservative) (hwip : s.wip = false)
    (a : CellAddr) (b : Byte) :
    writeTxn a b s = { afterWriteEvents b s with mem := memStore s.mem a.toNat b, wip := true } := by
  rw [writeTxn_eq_commitByte, commitByte_idle (by simpa using hmodel) (by simpa using hwip)]
  rfl

/-- In the conservative model, during a write cycle, it stores the byte or drops it, as one draw decides. -/
theorem writeTxn_busy {s : State} (hmodel : s.config.writeCycleModel = .conservative) (hwip : s.wip = true)
    (a : CellAddr) (b : Byte) : writeTxn a b s = { afterWriteEvents b s with
      mem := if Config.draw 1 s.draws = 1#1 then memStore s.mem a.toNat b else s.mem
      draws := s.draws + 1 } := by
  rw [writeTxn_eq_commitByte, commitByte_busy (by simpa using hmodel) (by simpa using hwip)]
  rfl

/-! ### The sequence (R115): what it leaves unchanged, and its latch under the default wiring -/

@[simp] theorem sequenceAddr_config (addr : LogicalAddr) (s : State) : (sequenceAddr addr s).config = s.config := by
  rw [sequenceAddr_spec]

@[simp] theorem sequenceAddr_wip (addr : LogicalAddr) (s : State) : (sequenceAddr addr s).wip = s.wip := by
  rw [sequenceAddr_spec]

@[simp] theorem sequenceAddr_mem (addr : LogicalAddr) (s : State) : (sequenceAddr addr s).mem = s.mem := by
  rw [sequenceAddr_spec]

@[simp] theorem sequenceAddr_draws (addr : LogicalAddr) (s : State) : (sequenceAddr addr s).draws = s.draws := by
  rw [sequenceAddr_spec]

@[simp] theorem sequenceAddr_oeN (addr : LogicalAddr) (s : State) :
    (sequenceAddr addr s).pins.oeN = s.pins.oeN := by
  rw [sequenceAddr_spec, replay_sequenceEvents]

@[simp] theorem sequenceAddr_weN (addr : LogicalAddr) (s : State) :
    (sequenceAddr addr s).pins.weN = s.pins.weN := by
  rw [sequenceAddr_spec, replay_sequenceEvents]

/-- A sequence changes nothing that decides which byte a read gets, or whether that takes a draw. -/
@[simp] theorem byteAt_sequenceAddr (addr : LogicalAddr) (s : State) (l : Option CellAddr) :
    byteAt (sequenceAddr addr s) l = byteAt s l := by
  simp only [byteAt, sequenceAddr_config, sequenceAddr_wip, sequenceAddr_mem, sequenceAddr_draws]

@[simp] theorem drawsAt_sequenceAddr (addr : LogicalAddr) (s : State) (l : Option CellAddr) :
    drawsAt (sequenceAddr addr s) l = drawsAt s l := by
  simp only [drawsAt, sequenceAddr_config, sequenceAddr_wip, sequenceAddr_mem]

/-- A sequence under the default wiring and CLK_PULSE: LA is the masked address, in numbers (R115, R117). -/
theorem sequenceAddr_default {s : State} (hmap : s.config.stageMap = defaultStageMap)
    (hclk : s.config.clkPulse = .highThenLow) (addr : LogicalAddr) : sequenceAddr addr s = { s with
      qLo := some (BitVec.ofNat 8 (addr.toNat % 0x2000))
      qHi := some (BitVec.ofNat 8 (addr.toNat % 0x2000 / 256))
      la := some (BitVec.ofNat 13 (addr.toNat % 0x2000))
      srLo := none, srHi := none
      pins := { s.pins with
        addrSerLo := ⟨s.pins.addrSerLo.mode, some (if addr.getLsbD 7 then .high else .low)⟩
        addrSerHi := ⟨s.pins.addrSerHi.mode, some .low⟩
        addrClk := ⟨s.pins.addrClk.mode, some .low⟩ }
      trace := s.trace ++ sequenceEvents s.config addr } := by
  rw [sequenceAddr_spec, replay_sequenceEvents, latchedAddr_default hmap, hclk, lowByte_maskedAddr,
    highByte_maskedAddr, maskedAddr_eq_ofNat]
  rfl

/-! ### What the commands do -/

theorem exec_read (s : State) :
    exec .read s = .next ((readTxn s).2.writeRes (zext32 (readTxn s).1)).advance := rfl

/-- With no latched address WRITE only records the fault (R139). -/
theorem exec_write_unlatched {s : State} (hla : s.la = none) (b : Byte) :
    exec (.write b) s = .next (s.raise .unknownAddressWrite (encode (.write b)) .none) := by
  have harm : exec (.write b) s = execWrite b s := rfl
  rw [harm, execWrite, hla]

/-- With a latched address WRITE is one write transaction there (R136). -/
theorem exec_write_latched {s : State} {a : CellAddr} (hla : s.la = some a) (b : Byte) :
    exec (.write b) s = .next (writeTxn a b s).advance := by
  have harm : exec (.write b) s = execWrite b s := rfl
  rw [harm, execWrite, hla]

/-- GET is what READ does after the sequence (R140). -/
theorem exec_get (addr : LogicalAddr) (s : State) : exec (.get addr) s = exec .read (sequenceAddr addr s) := rfl

/-- SET is one write transaction after the sequence, at the address it latches (R141). -/
theorem exec_set (addr : LogicalAddr) (b : Byte) (s : State) : exec (.set addr b) s =
    .next (writeTxn (latchedAddr s.config addr) b (sequenceAddr addr s)).advance := rfl

/-- READ between commands: RES is the addressed byte (R131). -/
theorem exec_read_atRest {s : State} (hoe : s.pins.oeN.mode = some .output)
    (hwe : s.pins.weN = ⟨some .output, some .high⟩) : exec .read s = .next { s with
      res := some (BitVec.ofNat 32 (byteAt s s.la).toNat)
      pins := pinsAfterRead s.pins
      trace := s.trace ++ readEvents (byteAt s s.la)
      draws := s.draws + drawsAt s s.la
      pc := s.pc + 1 } := by
  rw [exec_read, readTxn_atRest hoe hwe, zext32_eq_ofNat]
  rfl

/-! ### The obligations -/

/-- Settles O27: the read transaction between commands, and RES zero-extended. -/
theorem readReturnsTheAddressedByte : Obligations.ReadReturnsTheAddressedByte :=
  fun _ hoe hwe => ⟨decode_encode_read, exec_read_atRest hoe hwe⟩

/-- Settles O29: the fault where no address is latched, else the write transaction in each write-cycle case. -/
theorem writeStoresAtTheLatchedAddress : Obligations.WriteStoresAtTheLatchedAddress := by
  intro b s
  refine ⟨encode_write b ▸ decode_encode_write b, fun hla => ?unlatched, fun a hla =>
    ⟨fun hideal => ?ideal, fun hcons hwip => ?idle, fun hcons hwip => ?busy⟩⟩
  case unlatched =>
    rw [exec_write_unlatched hla, encode_write]
    rfl
  case ideal =>
    rw [exec_write_latched hla, writeTxn_ideal hideal]
    rfl
  case idle =>
    rw [exec_write_latched hla, writeTxn_idle hcons hwip]
    rfl
  case busy =>
    rw [exec_write_latched hla, writeTxn_busy hcons hwip]
    rfl

/-- Settles O32: READ after the sequence, which leaves OE_N and WE_N at rest and the addressed byte as it was. -/
theorem getReadsTheMaskedAddress : Obligations.GetReadsTheMaskedAddress := by
  intro addr s hmap hclk hoe hwe
  refine ⟨encode_get addr ▸ decode_encode_get addr, ?_⟩
  rw [exec_get, exec_read_atRest (by simpa using hoe) (by simpa using hwe), byteAt_sequenceAddr,
    drawsAt_sequenceAddr, sequenceAddr_default hmap hclk]

/-- Settles O33: the write transaction in each write-cycle case after the sequence, which leaves the parameters and WIP
as they were. -/
theorem setWritesTheMaskedAddress : Obligations.SetWritesTheMaskedAddress := by
  intro addr b s hmap hclk
  have hseq := sequenceAddr_default hmap hclk addr
  have hexec := exec_set addr b s
  rw [latchedAddr_default hmap, maskedAddr_eq_ofNat] at hexec
  refine ⟨encode_set addr b ▸ decode_encode_set addr b,
    fun hideal => ?ideal, fun hcons hwip => ?idle, fun hcons hwip => ?busy⟩
  case ideal =>
    rw [hexec, writeTxn_ideal (by simpa using hideal), hseq]
    rfl
  case idle =>
    rw [hexec, writeTxn_idle (by simpa using hcons) (by simpa using hwip), hseq]
    rfl
  case busy =>
    rw [hexec, writeTxn_busy (by simpa using hcons) (by simpa using hwip), hseq]
    rfl

end Sys2Proof.Proofs
end

section
/-! PROOFS. Encoding (`30_encoding.md`): the rows against the formats, the words of all commands, decoding and encoding
as inverses, and the assembler's words. -/

namespace Sys2Proof.Proofs

open Sys2Proof.Machine

/-! ### The words of the commands as numbers (R71, R76) -/

theorem encode_decompU (v : Byte) : encode (.decompU v) = BitVec.ofNat 32 (0x10000000 + v.toNat) :=
  formatV_eq_ofNat 0x1#4 v

theorem encode_decompS (v : Byte) : encode (.decompS v) = BitVec.ofNat 32 (0x20000000 + v.toNat) :=
  formatV_eq_ofNat 0x2#4 v

theorem encode_seq (addr : LogicalAddr) : encode (.seq addr) = BitVec.ofNat 32 (0x60000000 + addr.toNat) :=
  formatA_eq_ofNat 0x6#4 addr

/-- A format G word: the opcode, 24 reserved zeros, the digit. -/
theorem encode_segDigit (d : Digit) : encode (.segDigit d) = BitVec.ofNat 32 (0x30000000 + d.toNat) := by
  have hd := d.isLt
  apply BitVec.eq_of_toNat_eq
  rw [encode, BitVec.toNat_append, BitVec.toNat_append, ← Nat.shiftLeft_add_eq_or_of_lt hd]
  simp only [BitVec.toNat_ofNat, Nat.zero_mod, Nat.or_zero, Nat.shiftLeft_eq]
  omega

/-- A format T word: the opcode, 15 reserved zeros, the sign, the three digits. -/
theorem encode_segEncode (o t h : Digit) (neg : Bool) : encode (.segEncode o t h neg) =
    BitVec.ofNat 32 (0x50000000 + (if neg then 4096 else 0) + 256 * h.toNat + 16 * t.toNat + o.toNat) := by
  have ho := o.isLt
  have ht := t.isLt
  have hh := h.isLt
  have hneg := (BitVec.ofBool neg).isLt
  apply BitVec.eq_of_toNat_eq
  rw [encode]
  simp only [BitVec.toNat_append]
  rw [← Nat.shiftLeft_add_eq_or_of_lt ho, ← Nat.shiftLeft_add_eq_or_of_lt ht, ← Nat.shiftLeft_add_eq_or_of_lt hh,
    ← Nat.shiftLeft_add_eq_or_of_lt hneg]
  cases neg <;>
  · simp only [BitVec.toNat_ofNat, BitVec.toNat_ofBool, Nat.shiftLeft_eq]
    simp
    omega

/-! ### Decoding the words of SEG.DIGIT and SEG.ENCODE: formats G and T (R71) -/

theorem decode_encode_segDigit (d : Digit) : decode (encode (.segDigit d)) = .legal (.segDigit d) := by
  have hmask : encode (.segDigit d) &&& opcodeRows[2].mask = opcodeRows[2].pattern := by
    apply BitVec.eq_of_getLsbD_eq
    intro k hk
    simp only [opcodeRows, encode, List.getElem_cons_succ, List.getElem_cons_zero, BitVec.getLsbD_and,
      BitVec.getLsbD_append]
    interval_cases k <;> simp
  have hdigit : (encode (.segDigit d)).extractLsb' 0 4 = d := BitVec.extractLsb'_append_eq_right
  have hfields : opcodeRows[2].fields (encode (.segDigit d)) = .segDigit d := congrArg Instr.segDigit hdigit
  rw [decode_of_selects (List.getElem_mem _) (beq_iff_eq.mpr hmask), hfields]

/-- The fields of SEG.ENCODE's word, in the order of format T. -/
theorem segEncode_fields (o t h : Digit) (neg : Bool) :
    let w := encode (.segEncode o t h neg)
    w.extractLsb' 0 4 = o ∧ w.extractLsb' 4 4 = t ∧ w.extractLsb' 8 4 = h ∧ w.getLsbD 12 = neg := by
  refine ⟨BitVec.extractLsb'_append_eq_right, ?_, ?_, ?_⟩
  case refine_3 => simp only [encode, BitVec.getLsbD_append]; simp
  all_goals
    apply BitVec.eq_of_getLsbD_eq
    intro k hk
    rw [BitVec.getLsbD_extractLsb']
    simp only [encode, BitVec.getLsbD_append]
    interval_cases k <;> simp

theorem decode_encode_segEncode (o t h : Digit) (neg : Bool) :
    decode (encode (.segEncode o t h neg)) = .legal (.segEncode o t h neg) := by
  have hmask : encode (.segEncode o t h neg) &&& opcodeRows[4].mask = opcodeRows[4].pattern := by
    apply BitVec.eq_of_getLsbD_eq
    intro k hk
    simp only [opcodeRows, encode, List.getElem_cons_succ, List.getElem_cons_zero, BitVec.getLsbD_and,
      BitVec.getLsbD_append]
    interval_cases k <;> simp
  obtain ⟨ho, ht, hh, hneg⟩ := segEncode_fields o t h neg
  have hfields : opcodeRows[4].fields (encode (.segEncode o t h neg)) = .segEncode o t h neg := by
    simp only [opcodeRows, List.getElem_cons_succ, List.getElem_cons_zero, ho, ht, hh, hneg]
  rw [decode_of_selects (List.getElem_mem _) (beq_iff_eq.mpr hmask), hfields]

/-! ### The rows of R72 against the formats of R71 -/

/-- A row's mask covers the opcode and its format's reserved bits, and its pattern is its opcode alone. -/
theorem opcodeRows_match_formats : ∀ r ∈ opcodeRows, ∃ f,
    opcodeFormat (r.pattern.extractLsb' 28 4).toNat = some f ∧
    ∀ k < 32, r.mask.getLsbD k = (decide (28 ≤ k) || f.reserved.any fun q => decide (q.2 ≤ k ∧ k ≤ q.1)) ∧
      (k < 28 → r.pattern.getLsbD k = false) := by
  simp only [opcodeRows, List.forall_mem_cons, List.not_mem_nil, false_imp_iff, implies_true, and_true]
  refine ⟨⟨.V, ?_⟩, ⟨.V, ?_⟩, ⟨.G, ?_⟩, ⟨.S, ?_⟩, ⟨.T, ?_⟩, ⟨.A, ?_⟩, ⟨.N, ?_⟩, ⟨.B, ?_⟩, ⟨.A, ?_⟩, ⟨.AB, ?_⟩⟩ <;>
    decide

/-- Every assigned opcode is that of a row. -/
theorem exists_row_of_assigned : ∀ op : BitVec 4, (opcodeFormat op.toNat).isSome = true →
    ∃ r ∈ opcodeRows, r.pattern.extractLsb' 28 4 = op := by
  have hrows : ∀ op : BitVec 4, (opcodeFormat op.toNat).isSome = true →
      op ∈ opcodeRows.map fun r => r.pattern.extractLsb' 28 4 := by decide
  intro op hop
  exact List.mem_map.mp (hrows op hop)

theorem fieldOf_eq_zero_iff (w : Word) (hi lo : Nat) :
    fieldOf w hi lo = 0 ↔ ∀ k, lo ≤ k → k ≤ hi → w.getLsbD k = false := by
  have hzero : fieldOf w hi lo = 0 ↔ w.extractLsb' lo (hi + 1 - lo) = 0#_ := by
    rw [fieldOf_eq, ← BitVec.toNat_inj, BitVec.toNat_ofNat, Nat.zero_mod]
  rw [hzero]
  constructor
  · intro h k hlo hhi
    have hbit := congrArg (fun x => x.getLsbD (k - lo)) h
    simp only [BitVec.getLsbD_extractLsb', BitVec.getLsbD_zero, Nat.add_sub_cancel' hlo] at hbit
    simpa [show k - lo < hi + 1 - lo by omega] using hbit
  · intro h
    apply BitVec.eq_of_getLsbD_eq
    intro k hk
    rw [BitVec.getLsbD_extractLsb', h (lo + k) (by omega) (by omega)]
    simp

/-- A row selects exactly the well-formed words of its opcode: match and mask say what the formats say. -/
theorem selects_iff {r : OpcodeRow} (hr : r ∈ opcodeRows) (w : Word) : r.selects w = true ↔
    w.extractLsb' 28 4 = r.pattern.extractLsb' 28 4 ∧ wordWellFormed w = true := by
  obtain ⟨f, hf, hbits⟩ := opcodeRows_match_formats r hr
  have hwf (hop : w.extractLsb' 28 4 = r.pattern.extractLsb' 28 4) : wordWellFormed w = true ↔
      ∀ q ∈ f.reserved, ∀ k, q.2 ≤ k → k ≤ q.1 → w.getLsbD k = false := by
    rw [wordWellFormed, fieldOf_eq, hop, hf]
    simp only [List.all_eq_true, beq_iff_eq, fieldOf_eq_zero_iff]
  have hreserved : ∀ q ∈ f.reserved, q.1 < 28 := by cases f <;> decide
  constructor
  · intro hs
    have hop := opcode_eq_of_selects hr hs
    refine ⟨hop, (hwf hop).mpr fun q hq k hlo hhi => ?_⟩
    have hk28 : k < 28 := lt_of_le_of_lt hhi (hreserved q hq)
    obtain ⟨hmask, hpattern⟩ := hbits k (by omega)
    have hcovered : r.mask.getLsbD k = true := by
      rw [hmask, Bool.or_eq_true, List.any_eq_true]
      exact .inr ⟨q, hq, decide_eq_true ⟨hlo, hhi⟩⟩
    simpa [hcovered, hpattern hk28] using (masked_eq_iff w r.mask r.pattern).mp hs k (by omega)
  · rintro ⟨hop, hw⟩
    have hzero := (hwf hop).mp hw
    refine (masked_eq_iff w r.mask r.pattern).mpr fun k hk => ?_
    obtain ⟨hmask, hpattern⟩ := hbits k hk
    by_cases hk28 : k < 28
    · rw [hpattern hk28, hmask]
      by_cases hres : ∃ q ∈ f.reserved, q.2 ≤ k ∧ k ≤ q.1
      · obtain ⟨q, hq, hlo, hhi⟩ := hres
        rw [hzero q hq k hlo hhi, Bool.false_and]
      · have hany : (f.reserved.any fun q => decide (q.2 ≤ k ∧ k ≤ q.1)) = false := by
          rw [List.any_eq_false]
          simpa using hres
        rw [hany, decide_eq_false (Nat.not_le.mpr hk28), Bool.or_false, Bool.and_false]
    · have hbit := congrArg (fun x => x.getLsbD (k - 28)) hop
      simp only [BitVec.getLsbD_extractLsb', show 28 + (k - 28) = k by omega, show k - 28 < 4 by omega,
        decide_true, Bool.true_and] at hbit
      simp [hmask, hbit, Nat.not_lt.mp hk28]

/-- The decoder accepts the well-formed words. -/
theorem wordWellFormed_iff_legal (w : Word) : wordWellFormed w = true ↔ ∃ i, decode w = .legal i := by
  constructor
  · intro hw
    have hassigned : (opcodeFormat (w.extractLsb' 28 4).toNat).isSome = true := by
      rw [wordWellFormed, fieldOf_eq] at hw
      split at hw
      · cases hw
      · next f hf => exact Option.isSome_iff_exists.mpr ⟨f, hf⟩
    obtain ⟨r, hr, hop⟩ := exists_row_of_assigned _ hassigned
    exact ⟨_, decode_of_selects hr ((selects_iff hr w).mpr ⟨hop.symm, hw⟩)⟩
  · rintro ⟨i, hi⟩
    obtain ⟨r, hr, hs, -⟩ := decode_legal_row hi
    exact ((selects_iff hr w).mp hs).2

theorem decode_illegal_iff (w : Word) (k : Illegal) :
    decode w = .illegal k ↔ wordWellFormed w = false ∧ k = illegalKind w := by
  cases hd : decode w with
  | legal i => simp [(wordWellFormed_iff_legal w).mpr ⟨i, hd⟩]
  | illegal k' =>
    have hw : wordWellFormed w = false := by
      rw [← Bool.not_eq_true, wordWellFormed_iff_legal]
      simp [hd]
    obtain ⟨rfl, -⟩ := decode_illegal_row hd
    simp [hw, eq_comm]

/-- The assigned opcodes are 1 to 0xA (R72). -/
theorem opcodeFormat_isSome_iff {n : Nat} : (opcodeFormat n).isSome = true ↔ 1 ≤ n ∧ n ≤ 0xA := by
  unfold opcodeFormat
  split
  case h_11 =>
    simp only [imp_false, Option.isSome_none, Bool.false_eq_true, false_iff] at *
    omega
  all_goals decide

theorem illegalKind_eq_unassigned_iff (w : Word) :
    illegalKind w = .unassignedOpcode ↔ fieldOf w 31 28 = 0 ∨ 0xB ≤ fieldOf w 31 28 := by
  have h := @opcodeFormat_isSome_iff (fieldOf w 31 28)
  rw [illegalKind]
  split
  · next hs =>
    have hrange := h.mp hs
    simp
    omega
  · next hs =>
    rw [h] at hs
    simp
    omega

/-! ### Encoding a decoded word -/

/-- A selected word is the row's pattern with the bits that the mask leaves free. -/
theorem eq_pattern_or_of_selects {r : OpcodeRow} {w : Word} (h : r.selects w = true) :
    w = r.pattern ||| (w &&& ~~~r.mask) := by
  have hp : w &&& r.mask = r.pattern := beq_iff_eq.mp h
  rw [← hp, ← BitVec.and_or_distrib_left, BitVec.or_not_self, BitVec.and_allOnes]

/-- Each row's command has the row's pattern and the word's free bits as its word: no free bit is dropped. -/
theorem encode_row_fields (w : Word) : ∀ r ∈ opcodeRows, encode (r.fields w) = r.pattern ||| (w &&& ~~~r.mask) := by
  simp only [opcodeRows, List.forall_mem_cons, List.not_mem_nil, false_imp_iff, implies_true, and_true]
  refine ⟨?_, ?_, ?_, ?_, ?_, ?_, ?_, ?_, ?_, ?_⟩
  all_goals
    apply BitVec.eq_of_getLsbD_eq
    intro k hk
    simp only [encode, BitVec.getLsbD_append, BitVec.getLsbD_or, BitVec.getLsbD_and, BitVec.getLsbD_not,
      BitVec.getLsbD_extractLsb', BitVec.getLsbD_ofBool]
    interval_cases k <;> simp

/-! ### Numeric operands (R76) -/

/-- An operand in range is not truncated. -/
theorem ofInt_toNat_of_within {n : Nat} {hi x : Int} (hx : within 0 hi x = true) (hhi : hi < 2 ^ n) :
    ((BitVec.ofInt n x).toNat : Int) = x := by
  simp only [within, Bool.and_eq_true, decide_eq_true_eq] at hx
  rw [BitVec.toNat_ofInt, Int.toNat_of_nonneg (Int.emod_nonneg _ (by positivity))]
  push_cast
  exact Int.emod_eq_of_lt hx.1 (by omega)

/-- The operand of DECOMP.S is taken modulo 256. -/
theorem ofInt_byte_toNat (v : Int) : ((BitVec.ofInt 8 v).toNat : Int) = v % 256 := by
  rw [BitVec.toNat_ofInt, Int.toNat_of_nonneg (Int.emod_nonneg _ (by positivity))]
  rfl

theorem encode_segSign_toNat (neg : Bool) : (encode (.segSign neg)).toNat = 0x40000000 + neg.toNat := by
  cases neg <;> rfl

theorem encode_segEncode_toNat (o t h : Digit) (neg : Bool) : (encode (.segEncode o t h neg)).toNat =
    0x50000000 + 4096 * neg.toNat + 256 * h.toNat + 16 * t.toNat + o.toNat := by
  rw [encode_segEncode, BitVec.toNat_ofNat]
  cases neg <;>
  · simp only [Bool.false_eq_true, if_false, if_true, Bool.toNat_false, Bool.toNat_true]
    omega

/-- The sign operand is the number of the bit it stands for. -/
theorem sign_of_within {x : Int} (hx : within 0 1 x = true) : (((x == 1) : Bool).toNat : Int) = x := by
  simp only [within, Bool.and_eq_true, decide_eq_true_eq] at hx
  obtain rfl | rfl : x = 0 ∨ x = 1 := by omega
  · rfl
  · rfl

/-- A line with operands in range stands for a command whose word is the form's number. -/
theorem encode_instr_toNat (c : Config) (a : AsmCmd) (h : a.wellFormed = true) :
    ((encode (a.instr c)).toNat : Int) = asmWord c a := by
  cases a with
  | decompU v =>
    have hv := ofInt_toNat_of_within (n := 8) h (by decide)
    simp only [AsmCmd.instr, asmWord, encode_decompU, BitVec.toNat_ofNat]
    omega
  | decompS v =>
    have hv := ofInt_byte_toNat v
    simp only [AsmCmd.instr, asmWord, encode_decompS, BitVec.toNat_ofNat]
    omega
  | segDigit d =>
    have hd := ofInt_toNat_of_within (n := 4) h (by decide)
    simp only [AsmCmd.instr, asmWord, encode_segDigit, BitVec.toNat_ofNat]
    omega
  | segSign s =>
    have hs := sign_of_within h
    simp only [AsmCmd.instr, asmWord, encode_segSign_toNat]
    omega
  | segEncode o t h' s =>
    simp only [AsmCmd.wellFormed, Bool.and_eq_true, and_assoc] at h
    obtain ⟨ho, ht, hh, hs⟩ := h
    have ho := ofInt_toNat_of_within (n := 4) ho (by decide)
    have ht := ofInt_toNat_of_within (n := 4) ht (by decide)
    have hh := ofInt_toNat_of_within (n := 4) hh (by decide)
    have hs := sign_of_within hs
    simp only [AsmCmd.instr, asmWord, encode_segEncode_toNat]
    omega
  | seq addr =>
    have ha := ofInt_toNat_of_within (n := 16) h (by decide)
    simp only [AsmCmd.instr, asmWord, encode_seq, BitVec.toNat_ofNat]
    omega
  | read => rfl
  | write b =>
    have hb := ofInt_toNat_of_within (n := 8) h (by decide)
    simp only [AsmCmd.instr, asmWord, encode_write, BitVec.toNat_ofNat]
    omega
  | get addr =>
    have ha := ofInt_toNat_of_within (n := 16) h (by decide)
    simp only [AsmCmd.instr, asmWord, encode_get, BitVec.toNat_ofNat]
    omega
  | set addr b =>
    simp only [AsmCmd.wellFormed, Bool.and_eq_true] at h
    have ha := ofInt_toNat_of_within (n := 16) h.1 (by decide)
    have hb := ofInt_toNat_of_within (n := 8) h.2 (by decide)
    simp only [AsmCmd.instr, asmWord, encode_set, BitVec.toNat_ofNat]
    omega
  | setimg sf space value b =>
    simp only [AsmCmd.wellFormed, Bool.and_eq_true, and_assoc] at h
    obtain ⟨-, -, -, hb⟩ := h
    have hb := ofInt_toNat_of_within (n := 8) hb (by decide)
    have ha := (imageAddr c (sf == 1) (BitVec.ofInt 2 space) (BitVec.ofInt 8 value)).isLt
    simp only [AsmCmd.instr, asmWord, encode_set, BitVec.toNat_ofNat]
    omega

/-! ### The obligations -/

/-- Settles O1: format by format, the row selects the word and its fields are the operands. -/
theorem decodeOfEncodedCommand : Obligations.DecodeOfEncodedCommand := by
  intro i
  cases i with
  | decompU v => exact decode_encode_decompU v
  | decompS v => exact decode_encode_decompS v
  | segDigit d => exact decode_encode_segDigit d
  | segSign neg => exact decode_encode_segSign neg
  | segEncode o t h neg => exact decode_encode_segEncode o t h neg
  | seq addr => exact decode_encode_seq addr
  | read => exact decode_encode_read
  | write b => exact decode_encode_write b
  | get addr => exact decode_encode_get addr
  | set addr b => exact decode_encode_set addr b

/-- Settles O2: the row that decodes the word also gives it back. -/
theorem encodeOfDecodedWord : Obligations.EncodeOfDecodedWord := by
  intro w i hd
  obtain ⟨r, hr, hs, rfl⟩ := decode_legal_row hd
  rw [encode_row_fields w r hr, ← eq_pattern_or_of_selects hs]

/-- Settles O3: a row selects exactly the well-formed words of its opcode, and the opcode says the kind of the rest. -/
theorem decoderAcceptsExactlyTheFormats : Obligations.DecoderAcceptsExactlyTheFormats := by
  intro w
  refine ⟨wordWellFormed_iff_legal w, ?unassigned, ?reserved⟩
  case unassigned =>
    rw [decode_illegal_iff, eq_comm (a := Illegal.unassignedOpcode), illegalKind_eq_unassigned_iff,
      and_iff_right_iff_imp]
    intro hop
    rw [← illegalKind_eq_unassigned_iff] at hop
    rw [wordWellFormed]
    split
    · rfl
    · next f hf => simp [illegalKind, hf] at hop
  case reserved =>
    have hkind : illegalKind w = .reservedBitSet ↔ ¬ illegalKind w = .unassignedOpcode := by
      cases illegalKind w <;> simp
    rw [decode_illegal_iff, eq_comm (a := Illegal.reservedBitSet), hkind, illegalKind_eq_unassigned_iff]
    refine and_congr_right fun _ => ?_
    omega

/-- Settles O4: rows that select one word share its opcode, and no two rows share an opcode. -/
theorem opcodeRowsDoNotOverlap : Obligations.OpcodeRowsDoNotOverlap := by
  intro w r hr q hq hrs hqs
  have hop := (opcode_eq_of_selects hr hrs).symm.trans (opcode_eq_of_selects hq hqs)
  rw [List.inj_on_of_nodup_map opcodeRows_opcodes_nodup hr hq hop]

/-- Settles O5: each word is run through the decoder. -/
theorem wordsOfTheSpecDecode : Obligations.WordsOfTheSpecDecode := by
  unfold Obligations.WordsOfTheSpecDecode
  decide

/-- Settles O6: the range check stands before the encoding, and a word in range is the form's number. -/
theorem assemblerWritesTheFormsWord : Obligations.AssemblerWritesTheFormsWord := by
  intro c a
  refine ⟨fun h => ⟨a.instr c, ?_, encode_instr_toNat c a h⟩, fun h => ?_⟩
  · simp [assemble, h]
  · simp [assemble, h]

end Sys2Proof.Proofs
end

section
/-! PROOFS. Steps, part one: what the boundary, the sequence and the transactions leave unchanged, and the invariant of
command boundaries (sections 1 to 3 of `10_state.md`). -/

namespace Sys2Proof.Proofs

open Sys2Proof.Machine

/-! ### The boundary changes WIP and the draws alone (R137) -/

@[simp] theorem boundary_config (s : State) : (boundary s).config = s.config := by
  obtain ⟨w, n, h, -⟩ := boundary_spec s
  rw [h]

@[simp] theorem boundary_program (s : State) : (boundary s).program = s.program := by
  obtain ⟨w, n, h, -⟩ := boundary_spec s
  rw [h]

@[simp] theorem boundary_pc (s : State) : (boundary s).pc = s.pc := by
  obtain ⟨w, n, h, -⟩ := boundary_spec s
  rw [h]

@[simp] theorem boundary_fault (s : State) : (boundary s).fault = s.fault := by
  obtain ⟨w, n, h, -⟩ := boundary_spec s
  rw [h]

@[simp] theorem boundary_pins (s : State) : (boundary s).pins = s.pins := by
  obtain ⟨w, n, h, -⟩ := boundary_spec s
  rw [h]

@[simp] theorem boundary_la (s : State) : (boundary s).la = s.la := by
  obtain ⟨w, n, h, -⟩ := boundary_spec s
  rw [h]

@[simp] theorem boundary_mem (s : State) : (boundary s).mem = s.mem := by
  obtain ⟨w, n, h, -⟩ := boundary_spec s
  rw [h]

@[simp] theorem boundary_trace (s : State) : (boundary s).trace = s.trace := by
  obtain ⟨w, n, h, -⟩ := boundary_spec s
  rw [h]

@[simp] theorem fetch_boundary (s : State) : fetch (boundary s) = fetch s := by simp [fetch]

/-! ### What a sequence does to the other fields (R115) -/

@[simp] theorem sequenceAddr_program (addr : LogicalAddr) (s : State) :
    (sequenceAddr addr s).program = s.program := by
  rw [sequenceAddr_spec]

@[simp] theorem sequenceAddr_pc (addr : LogicalAddr) (s : State) : (sequenceAddr addr s).pc = s.pc := by
  rw [sequenceAddr_spec]

@[simp] theorem sequenceAddr_res (addr : LogicalAddr) (s : State) : (sequenceAddr addr s).res = s.res := by
  rw [sequenceAddr_spec]

@[simp] theorem sequenceAddr_fault (addr : LogicalAddr) (s : State) : (sequenceAddr addr s).fault = s.fault := by
  rw [sequenceAddr_spec]

@[simp] theorem sequenceAddr_la (addr : LogicalAddr) (s : State) :
    (sequenceAddr addr s).la = some (latchedAddr s.config addr) := by
  rw [sequenceAddr_spec]

@[simp] theorem sequenceAddr_trace (addr : LogicalAddr) (s : State) :
    (sequenceAddr addr s).trace = s.trace ++ sequenceEvents s.config addr := by
  rw [sequenceAddr_spec]

@[simp] theorem sequenceAddr_pins (addr : LogicalAddr) (s : State) :
    (sequenceAddr addr s).pins = s.pins.replay (sequenceEvents s.config addr) := by
  rw [sequenceAddr_spec]

/-! ### What a read transaction leaves unchanged (R132) -/

@[simp] theorem readTxn_config (s : State) : (readTxn s).2.config = s.config := by
  obtain ⟨ls, n, -, h⟩ := readTxn_spec s
  rw [h]

@[simp] theorem readTxn_program (s : State) : (readTxn s).2.program = s.program := by
  obtain ⟨ls, n, -, h⟩ := readTxn_spec s
  rw [h]

@[simp] theorem readTxn_pc (s : State) : (readTxn s).2.pc = s.pc := by
  obtain ⟨ls, n, -, h⟩ := readTxn_spec s
  rw [h]

@[simp] theorem readTxn_res (s : State) : (readTxn s).2.res = s.res := by
  obtain ⟨ls, n, -, h⟩ := readTxn_spec s
  rw [h]

@[simp] theorem readTxn_fault (s : State) : (readTxn s).2.fault = s.fault := by
  obtain ⟨ls, n, -, h⟩ := readTxn_spec s
  rw [h]

@[simp] theorem readTxn_la (s : State) : (readTxn s).2.la = s.la := by
  obtain ⟨ls, n, -, h⟩ := readTxn_spec s
  rw [h]

@[simp] theorem readTxn_mem (s : State) : (readTxn s).2.mem = s.mem := by
  obtain ⟨ls, n, -, h⟩ := readTxn_spec s
  rw [h]

@[simp] theorem readTxn_pins (s : State) : (readTxn s).2.pins = pinsAfterRead s.pins := by
  obtain ⟨ls, n, hl, h⟩ := readTxn_spec s
  rw [h, replay_sampledEvents _ hl]

/-! ### What a write transaction leaves unchanged (R136) -/

@[simp] theorem writeTxn_config (a : CellAddr) (b : Byte) (s : State) : (writeTxn a b s).config = s.config := by
  obtain ⟨m, w, n, h, -⟩ := writeTxn_frame a b s
  rw [h]

@[simp] theorem writeTxn_program (a : CellAddr) (b : Byte) (s : State) : (writeTxn a b s).program = s.program := by
  obtain ⟨m, w, n, h, -⟩ := writeTxn_frame a b s
  rw [h]

@[simp] theorem writeTxn_pc (a : CellAddr) (b : Byte) (s : State) : (writeTxn a b s).pc = s.pc := by
  obtain ⟨m, w, n, h, -⟩ := writeTxn_frame a b s
  rw [h]

@[simp] theorem writeTxn_fault (a : CellAddr) (b : Byte) (s : State) : (writeTxn a b s).fault = s.fault := by
  obtain ⟨m, w, n, h, -⟩ := writeTxn_frame a b s
  rw [h]

@[simp] theorem writeTxn_la (a : CellAddr) (b : Byte) (s : State) : (writeTxn a b s).la = s.la := by
  obtain ⟨m, w, n, h, -⟩ := writeTxn_frame a b s
  rw [h]

@[simp] theorem writeTxn_res (a : CellAddr) (b : Byte) (s : State) : (writeTxn a b s).res = s.res := by
  obtain ⟨m, w, n, h, -⟩ := writeTxn_frame a b s
  rw [h]

@[simp] theorem writeTxn_trace (a : CellAddr) (b : Byte) (s : State) :
    (writeTxn a b s).trace = s.trace ++ writeEvents b := by
  obtain ⟨m, w, n, h, -⟩ := writeTxn_frame a b s
  rw [h]

@[simp] theorem writeTxn_pins (a : CellAddr) (b : Byte) (s : State) :
    (writeTxn a b s).pins = pinsAfterWrite s.pins b := by
  obtain ⟨m, w, n, h, -⟩ := writeTxn_frame a b s
  rw [h]

/-! ### The invariant, operation by operation -/

/-- The control pins are at rest whatever happens to the state beside the pins and the parameters. -/
theorem controlPinsAtRest_of_eq {s t : State} (h : ControlPinsAtRest s) (hconfig : t.config = s.config)
    (hpins : t.pins = s.pins) : ControlPinsAtRest t := by
  constructor
  all_goals rw [hpins]
  · exact h.clkMode
  · exact h.clkDriven
  · rw [hconfig]
    exact h.clkLow
  · exact h.serLoMode
  · exact h.serLoDriven
  · exact h.serHi
  · exact h.oeN
  · exact h.weN

theorem inv_boundary {s : State} (hi : Inv s) : Inv (boundary s) := by
  obtain ⟨w, n, h, hidle, hwip⟩ := boundary_spec s
  rw [h]
  exact {
    mem := hi.mem
    control := controlPinsAtRest_of_eq hi.control rfl rfl
    bus := hi.bus
    latch := hi.latch
    stages := hi.stages
    wipIdeal := fun hideal => by simpa [hi.wipIdeal hideal] using hwip
    unlatched := fun hla => ⟨(hi.unlatched hla).1, by simpa [(hi.unlatched hla).2] using hwip⟩
    pcInSequence := hi.pcInSequence
    record := hi.record }

/-- Taking a fault keeps the invariant, if the record names the command at `pc` (R150). -/
theorem inv_fault {s : State} (hi : Inv s) {r : FaultRecord} (hpc : r.pc = s.pc) (hword : fetch s = some r.word) :
    Inv { s with fault := some r } where
  mem := hi.mem
  control := controlPinsAtRest_of_eq hi.control rfl rfl
  bus := hi.bus
  latch := hi.latch
  stages := hi.stages
  wipIdeal := hi.wipIdeal
  unlatched := hi.unlatched
  pcInSequence := hi.pcInSequence
  record := fun q hq => by
    cases hq
    exact ⟨hpc, hword⟩

theorem inv_writeRes {s : State} (hi : Inv s) (v : Word) : Inv (s.writeRes v) where
  mem := hi.mem
  control := controlPinsAtRest_of_eq hi.control rfl rfl
  bus := hi.bus
  latch := hi.latch
  stages := hi.stages
  wipIdeal := hi.wipIdeal
  unlatched := hi.unlatched
  pcInSequence := hi.pcInSequence
  record := hi.record

theorem inv_advance {s : State} (hi : Inv s) (hf : s.fault = none) (hpc : s.pc < s.program.length) :
    Inv s.advance where
  mem := hi.mem
  control := controlPinsAtRest_of_eq hi.control rfl rfl
  bus := hi.bus
  latch := hi.latch
  stages := hi.stages
  wipIdeal := hi.wipIdeal
  unlatched := hi.unlatched
  pcInSequence := hpc
  record := fun r hr => by
    rw [State.advance_fault, hf] at hr
    cases hr

/-- A sequence latches an address and leaves the clock at its resting level, ADDR_SER_HI Low (R115, R119). -/
theorem inv_sequenceAddr {s : State} (hi : Inv s) (addr : LogicalAddr) : Inv (sequenceAddr addr s) := by
  rw [sequenceAddr_spec, replay_sequenceEvents]
  exact {
    mem := hi.mem
    control := {
      clkMode := hi.control.clkMode
      clkDriven := Option.some_ne_none _
      clkLow := fun hclk => congrArg (fun c => some (pulseSecond c)) hclk
      serLoMode := hi.control.serLoMode
      serLoDriven := Option.some_ne_none _
      serHi := by simp only [hi.control.serHi]
      oeN := hi.control.oeN
      weN := hi.control.weN }
    bus := hi.bus
    latch := .inr ⟨maskedAddr addr, rfl, rfl, rfl⟩
    stages := ⟨rfl, rfl⟩
    wipIdeal := hi.wipIdeal
    unlatched := fun hla => absurd hla (Option.some_ne_none _)
    pcInSequence := hi.pcInSequence
    record := hi.record }

/-- A read transaction leaves the data lines Inputs and OE_N High (R132, R134). -/
theorem inv_readTxn {s : State} (hi : Inv s) : Inv (readTxn s).2 := by
  obtain ⟨ls, n, hl, h⟩ := readTxn_spec s
  rw [h, replay_sampledEvents _ hl]
  exact {
    mem := hi.mem
    control := {
      clkMode := hi.control.clkMode
      clkDriven := hi.control.clkDriven
      clkLow := hi.control.clkLow
      serLoMode := hi.control.serLoMode
      serLoDriven := hi.control.serLoDriven
      serHi := hi.control.serHi
      oeN := by simp [pinsAfterRead, hi.control.oeN]
      weN := hi.control.weN }
    bus := .inl fun i => by simp [Pins.pin, pinsAfterRead]
    latch := hi.latch
    stages := hi.stages
    wipIdeal := hi.wipIdeal
    unlatched := hi.unlatched
    pcInSequence := hi.pcInSequence
    record := hi.record }

/-- A byte driven on the data lines is what a write transaction leaves there (R135, R136). -/
theorem busByte_pinsAfterWrite (ps : Pins) (b : Byte) : busByte (pinsAfterWrite ps b) b := by
  intro i
  simp [Pins.wire, Pins.pin, pinsAfterWrite, levelOf]

/-- A write transaction with an address latched stores in the EEPROM and leaves the lines driven (R135, R136). -/
theorem inv_writeTxn {s : State} (hi : Inv s) (hla : s.la ≠ none) (a : CellAddr) (b : Byte) :
    Inv (writeTxn a b s) := by
  obtain ⟨m, w, n, h, hm, hideal⟩ := writeTxn_frame a b s
  rw [h]
  exact {
    mem := by
      obtain rfl | rfl := hm
      · exact memWf_memStore b hi.mem a.isLt
      · exact hi.mem
    control := {
      clkMode := hi.control.clkMode
      clkDriven := hi.control.clkDriven
      clkLow := hi.control.clkLow
      serLoMode := hi.control.serLoMode
      serLoDriven := hi.control.serLoDriven
      serHi := hi.control.serHi
      oeN := hi.control.oeN
      weN := by simp [pinsAfterWrite, hi.control.weN] }
    bus := .inr ⟨b, busByte_pinsAfterWrite s.pins b⟩
    latch := hi.latch
    stages := hi.stages
    wipIdeal := fun hmodel => (hideal hmodel).trans (hi.wipIdeal hmodel)
    unlatched := fun h => absurd h hla
    pcInSequence := hi.pcInSequence
    record := hi.record }

/-- Every command keeps the invariant, where it stands at `pc` and there is no fault. -/
theorem inv_effect {i : Instr} {s t : State} (hi : Inv s) (hf : s.fault = none) (hw : fetch s = some (encode i))
    (he : Effect i s t) : Inv t := by
  have hpc := fetch_bound hw
  cases he with
  | faulted r hrpc hword => exact inv_fault hi hrpc (hword ▸ hw)
  | result v => exact inv_advance (inv_writeRes hi v) hf hpc
  | seq a => exact inv_advance (inv_sequenceAddr hi a) (by simpa using hf) (by simpa using hpc)
  | read => exact inv_advance (inv_writeRes (inv_readTxn hi) _) (by simpa using hf) (by simpa using hpc)
  | write b a _ hla => exact inv_advance (inv_writeTxn hi (by simp [hla]) a b) (by simpa using hf) (by simpa using hpc)
  | get a =>
    exact inv_advance (inv_writeRes (inv_readTxn (inv_sequenceAddr hi a)) _) (by simpa using hf) (by simpa using hpc)
  | set a b =>
    exact inv_advance (inv_writeTxn (inv_sequenceAddr hi a) (by simp) _ b) (by simpa using hf) (by simpa using hpc)

/-! ### The obligations -/

/-- Settles O41: nothing is latched, written or driven yet, and the pins are those after reset. -/
theorem runsStartInTheInvariant : Obligations.RunsStartInTheInvariant := by
  intro c program
  exact {
    mem := rfl
    control := ⟨rfl, Option.some_ne_none _, fun _ => rfl, rfl, Option.some_ne_none _, rfl, rfl, rfl⟩
    bus := .inl fun i => by simp [startRun, State.resetWith, resetPins, Pins.pin]
    latch := .inl ⟨rfl, rfl, rfl⟩
    stages := ⟨rfl, rfl⟩
    wipIdeal := fun _ => rfl
    unlatched := fun _ => ⟨rfl, rfl⟩
    pcInSequence := Nat.zero_le _
    record := fun r hr => by cases hr }

/-- Settles O42: the boundary keeps the invariant, and so does the fault or the command after it. -/
theorem everyStepKeepsTheInvariant : Obligations.EveryStepKeepsTheInvariant := by
  intro s t hi h
  obtain ⟨hf, w, hw, ⟨k, -, rfl⟩ | ⟨i, hd, he⟩⟩ := step_cases h
  · exact inv_fault (inv_boundary hi) rfl (by simpa using hw)
  · refine inv_effect (inv_boundary hi) (by simpa using hf) ?_ he
    rw [fetch_boundary, hw, encodeOfDecodedWord w i hd]
end Sys2Proof.Proofs
end

section
/-! PROOFS. Steps, part two: the events of a step, replaying them, and their order (section 6 of `10_state.md`,
section 6 of `20_memory.md`, section 3 of `60_exceptions.md`). -/

namespace Sys2Proof.Proofs

open Sys2Proof.Machine

/-! ### The events of a step -/

/-- The part of a step's events that addresses the EEPROM: nothing, or one sequence, whose address LA then holds. -/
inductive AddressPart (s t : State) : List Event → Prop where
  | none (hla : t.la = s.la) : AddressPart s t []
  | sequence (addr : LogicalAddr) (hla : t.la = some (latchedAddr s.config addr)) :
    AddressPart s t (sequenceEvents s.config addr)

/-- The part of a step's events that moves data: nothing, one read transaction, or one write transaction with an
address latched. -/
inductive TransactionPart (t : State) : List Event → Prop where
  | none : TransactionPart t []
  | read (ls : List Level) (hl : ls.length = 8) : TransactionPart t (sampledEvents ls)
  | write (b : Byte) (hla : t.la ≠ Option.none) : TransactionPart t (writeEvents b)

/-- From `s` to `t`, the events `address` and then `transaction` happened, and they account for the pins. -/
structure Events (s t : State) (address transaction : List Event) : Prop where
  trace : t.trace = s.trace ++ (address ++ transaction)
  pins : t.pins = s.pins.replay (address ++ transaction)
  address : AddressPart s t address
  transaction : TransactionPart t transaction

/-- A fault, an illegal word's too, makes no event. -/
theorem events_fault (s : State) (r : FaultRecord) : Events s { s with fault := some r } [] [] :=
  ⟨by simp, by simp, .none rfl, .none⟩

/-- A command that completes makes as many events as R181 counts. -/
theorem events_of_effect {i : Instr} {s t : State} (hf : s.fault = none) (he : Effect i s t) :
    ∃ address transaction, Events s t address transaction ∧
      (address ++ transaction).length = if t.fault = none then eventCount i else 0 := by
  cases he with
  | faulted r => exact ⟨[], [], events_fault s r, by simp⟩
  | result v hev => exact ⟨[], [], ⟨by simp, by simp, .none rfl, .none⟩, by simp [hf, hev]⟩
  | seq a hi =>
    exact ⟨sequenceEvents s.config a, [], ⟨by simp, by simp, .sequence a (by simp), .none⟩,
      by simp [hi, hf, eventCount]⟩
  | read hi =>
    obtain ⟨ls, n, hl, h⟩ := readTxn_spec s
    exact ⟨[], sampledEvents ls, ⟨by simp [h], by simp [replay_sampledEvents _ hl], .none (by simp), .read ls hl⟩,
      by simp [hi, hf, eventCount, sampledEvents_length hl]⟩
  | write b a hi hla =>
    exact ⟨[], writeEvents b, ⟨by simp, by simp [replay_writeEvents], .none (by simp), .write b (by simp [hla])⟩,
      by simp [hi, hf, eventCount]⟩
  | get a hi =>
    obtain ⟨ls, n, hl, h⟩ := readTxn_spec (sequenceAddr a s)
    exact ⟨sequenceEvents s.config a, sampledEvents ls,
      ⟨by simp [h], by simp [Pins.replay_append, replay_sampledEvents _ hl], .sequence a (by simp), .read ls hl⟩,
      by simp [hi, hf, eventCount, sampledEvents_length hl]⟩
  | set a b hi =>
    exact ⟨sequenceEvents s.config a, writeEvents b,
      ⟨by simp, by simp [Pins.replay_append, replay_writeEvents], .sequence a (by simp), .write b (by simp)⟩,
      by simp [hi, hf, eventCount]⟩

/-- The boundary makes no event and leaves the parameters, the pins and LA. -/
theorem events_of_boundary {s t : State} {address transaction : List Event}
    (h : Events (boundary s) t address transaction) : Events s t address transaction where
  trace := by simpa using h.trace
  pins := by simpa using h.pins
  address := by
    cases h.address with
    | none hla => exact .none (by simpa using hla)
    | sequence addr hla =>
      rw [boundary_config] at hla ⊢
      exact .sequence addr hla
  transaction := h.transaction

/-- The events of a step: none if it faults, else as many as its command's count. -/
theorem events_of_step {s t : State} (h : step s = .next t) : ∃ address transaction,
    Events s t address transaction ∧ (t.fault ≠ none → (address ++ transaction).length = 0) ∧
    (t.fault = none → ∃ w i, fetch s = some w ∧ decode w = .legal i ∧
      (address ++ transaction).length = eventCount i) := by
  obtain ⟨hf, w, hw, ⟨k, -, rfl⟩ | ⟨i, hd, he⟩⟩ := step_cases h
  · exact ⟨[], [], events_of_boundary (events_fault (boundary s) _), fun _ => rfl, fun hno => by simp at hno⟩
  · obtain ⟨address, transaction, hev, hlen⟩ := events_of_effect (by simpa using hf) he
    exact ⟨address, transaction, events_of_boundary hev, fun hfault => by simpa [hfault] using hlen,
      fun hno => ⟨w, i, hw, hd, by simpa [hno] using hlen⟩⟩

/-! ### Pins that events do not touch -/

theorem pin_apply_other (ps : Pins) {e : Event} {q : Pin} (h : e.pin ≠ q) : (ps.apply e).pin q = ps.pin q := by
  cases e with
  | mode p m => exact Pins.setPin_pin_other ps _ h.symm
  | drive p l => exact Pins.setPin_pin_other ps _ h.symm
  | sample p l => rfl

theorem wire_apply_other (ps : Pins) {e : Event} {q : Pin} (h : e.pin ≠ q) : (ps.apply e).wire q = ps.wire q := by
  simp only [Pins.wire, pin_apply_other ps h]

/-- A pin that was driven High is not Low on its wire, whatever its mode. -/
theorem wire_drive_high (ps : Pins) (p : Pin) : (ps.apply (.drive p .high)).wire p ≠ some .low := by
  simp only [Pins.wire, Pins.apply_drive, Pins.setPin_pin_same]
  split <;> simp

/-! ### Order, piece by piece -/

/-- Neither OE_N nor WE_N is Low. -/
def Idle (ps : Pins) : Prop := ps.wire .oeN ≠ some .low ∧ ps.wire .weN ≠ some .low

/-- An event on another pin than OE_N and WE_N. -/
def sparesEnables (e : Event) : Prop := e.pin ≠ .oeN ∧ e.pin ≠ .weN

/-- The EEPROM does not drive the bus while OE_N is not Low. -/
theorem busSafe_of_oeN {ps : Pins} (h : ps.wire .oeN ≠ some .low) : busSafe ps = true := by
  simp [busSafe, h]

/-- The EEPROM may drive the bus while no line is an Output and WE_N is not Low. -/
theorem busSafe_of_inputs {ps : Pins} (hwe : ps.wire .weN ≠ some .low)
    (hinput : ∀ i : Fin 8, (ps.pin (.d i)).mode = some .input) : busSafe ps = true := by
  simp [busSafe, hwe, hinput]

theorem idle_apply {ps : Pins} (h : Idle ps) {e : Event} (he : sparesEnables e) : Idle (ps.apply e) := by
  rw [Idle, wire_apply_other ps he.1, wire_apply_other ps he.2]
  exact h

theorem idle_replay {ps : Pins} (h : Idle ps) {es : List Event} (hes : ∀ e ∈ es, sparesEnables e) :
    Idle (ps.replay es) := by
  induction es generalizing ps with
  | nil => exact h
  | cons e es ih =>
    rw [List.forall_mem_cons] at hes
    exact ih (idle_apply h hes.1) hes.2

/-- An event that finds WE_N High and does not drive it Low is in order, if it leaves the bus safe. -/
theorem orderly_cons {ps : Pins} {e : Event} {es : List Event} (hwe : ps.wire .weN ≠ some .low)
    (he : e ≠ .drive .weN .low) (hsafe : busSafe (ps.apply e) = true) (hes : orderly (ps.apply e) es = true) :
    orderly ps (e :: es) = true := by
  simp [orderly, hwe, he, hsafe, hes]

theorem orderly_append {ps : Pins} {es fs : List Event} (hes : orderly ps es = true)
    (hfs : orderly (ps.replay es) fs = true) : orderly ps (es ++ fs) = true := by
  induction es generalizing ps with
  | nil => exact hfs
  | cons e es ih =>
    simp only [orderly, Bool.and_eq_true] at hes
    obtain ⟨⟨⟨hlow, hfall⟩, hsafe⟩, hrest⟩ := hes
    simp only [List.cons_append, orderly, Bool.and_eq_true]
    exact ⟨⟨⟨hlow, hfall⟩, hsafe⟩, ih hrest hfs⟩

theorem ne_drive_weN_of_spares {e : Event} (he : sparesEnables e) (l : Level) : e ≠ .drive .weN l := by
  rintro rfl
  exact he.2 rfl

/-- While neither enable is Low, any events on the other pins are in order. -/
theorem orderly_of_spares {ps : Pins} (h : Idle ps) {es : List Event} (hes : ∀ e ∈ es, sparesEnables e) :
    orderly ps es = true := by
  induction es generalizing ps with
  | nil => simp [orderly, h.2]
  | cons e es ih =>
    rw [List.forall_mem_cons] at hes
    have hnext := idle_apply h hes.1
    exact orderly_cons h.2 (ne_drive_weN_of_spares hes.1 _) (busSafe_of_oeN hnext.1) (ih hnext hes.2)

/-- Samples change no pin, so they are in order wherever the bus is safe. -/
theorem orderly_samples {ps : Pins} (hwe : ps.wire .weN ≠ some .low) (hsafe : busSafe ps = true) {es : List Event}
    (hes : ∀ e ∈ es, ∃ p l, e = .sample p l) : orderly ps es = true ∧ ps.replay es = ps := by
  induction es with
  | nil => exact ⟨by simp [orderly, hwe], rfl⟩
  | cons e es ih =>
    rw [List.forall_mem_cons] at hes
    obtain ⟨⟨p, l, rfl⟩, hes⟩ := hes
    obtain ⟨hrest, hpins⟩ := ih hes
    exact ⟨orderly_cons hwe (by simp) hsafe hrest, hpins⟩

/-! ### The order of a sequence and of the transactions -/

theorem sparesEnables_of_addressPin {e : Event} (h : addressPin e.pin = true) : sparesEnables e := by
  constructor <;>
  · intro hp
    rw [hp] at h
    cases h

/-- Events on the data lines spare the enables. -/
theorem dataEvents_spare (f : Fin 8 → Event) (hf : ∀ i, (f i).pin = .d i) :
    ∀ e ∈ bitLines.map f, sparesEnables e := by
  intro e he
  obtain ⟨i, -, rfl⟩ := List.mem_map.mp he
  simp [sparesEnables, hf i]

/-- A read transaction is in order: the lines are Inputs before OE_N falls, and OE_N rises at its end (R132, R134). -/
theorem orderly_sampledEvents {ps : Pins} (h : Idle ps) {ls : List Level} : orderly ps (sampledEvents ls) = true := by
  have hmodes : ∀ e ∈ bitLines.map fun i => Event.mode (.d i) .input, sparesEnables e :=
    dataEvents_spare _ fun _ => rfl
  obtain ⟨hinput, -, -⟩ := readPins ps
  have hidle := idle_replay h hmodes
  generalize hqs : ps.replay (bitLines.map fun i => Event.mode (.d i) .input) = qs at hinput hidle
  have hwe : (qs.apply (.drive .oeN .low)).wire .weN ≠ some .low := by
    rw [wire_apply_other qs (by simp [Event.pin])]
    exact hidle.2
  have hsafe : busSafe (qs.apply (.drive .oeN .low)) = true := busSafe_of_inputs hwe hinput
  have hsamples : ∀ e ∈ List.zipWith (fun i l => Event.sample (.d i) l) bitLines ls, ∃ p l, e = .sample p l := by
    intro e he
    rw [← List.map_uncurry_zip_eq_zipWith] at he
    obtain ⟨x, -, rfl⟩ := List.mem_map.mp he
    exact ⟨_, _, rfl⟩
  obtain ⟨hsampled, hkept⟩ := orderly_samples hwe hsafe hsamples
  have hend : Idle ((qs.apply (.drive .oeN .low)).apply (.drive .oeN .high)) := by
    refine ⟨wire_drive_high _ _, ?_⟩
    rw [wire_apply_other _ (by simp [Event.pin])]
    exact hwe
  simp only [sampledEvents, List.append_assoc, List.singleton_append]
  refine orderly_append (orderly_of_spares h hmodes) ?_
  rw [hqs]
  refine orderly_cons hidle.2 (by simp) hsafe (orderly_append hsampled ?_)
  rw [hkept]
  exact orderly_cons hwe (by simp) (busSafe_of_oeN hend.1) (by rw [orderly, bne_iff_ne]; exact hend.2)

/-- WE_N may fall and rise once all lines are driven (R60, R175). -/
theorem orderly_writePulse {ps : Pins} (h : Idle ps) (hdriven : busDriven ps = true) :
    orderly ps [.drive .weN .low, .drive .weN .high] = true := by
  have hoe : (ps.apply (.drive .weN .low)).wire .oeN ≠ some .low := by
    rw [wire_apply_other _ (by simp [Event.pin])]
    exact h.1
  have hoe' : ((ps.apply (.drive .weN .low)).apply (.drive .weN .high)).wire .oeN ≠ some .low := by
    rw [wire_apply_other _ (by simp [Event.pin])]
    exact hoe
  have hwe := wire_drive_high (ps.apply (.drive .weN .low)) .weN
  simp [-Pins.apply_drive, orderly, h.2, hdriven, busSafe_of_oeN hoe, busSafe_of_oeN hoe', hwe]

/-- A write transaction is in order: all lines are driven before WE_N falls, and its rise is the next event (R136). -/
theorem orderly_writeEvents {ps : Pins} (h : Idle ps) (b : Byte) : orderly ps (writeEvents b) = true := by
  have hmodes : ∀ e ∈ bitLines.map fun i => Event.mode (.d i) .output, sparesEnables e :=
    dataEvents_spare _ fun _ => rfl
  have hdrives : ∀ e ∈ bitLines.map fun i => Event.drive (.d i) (levelOf (b.getLsbD i.val)), sparesEnables e :=
    dataEvents_spare _ fun _ => rfl
  have hdata := List.forall_mem_append.mpr ⟨hmodes, hdrives⟩
  have hidle := idle_replay h hdata
  have hdriven : busDriven (ps.replay ((bitLines.map fun i => Event.mode (.d i) .output) ++
      bitLines.map fun i => Event.drive (.d i) (levelOf (b.getLsbD i.val)))) = true := by
    simp [busDriven, bitLines, Pins.wire, Pins.setPin, Pins.pin]
  rw [writeEvents]
  refine orderly_append (orderly_of_spares h hdata) ?_
  exact orderly_writePulse hidle hdriven

theorem addressPart_pins {s t : State} {es : List Event} (h : AddressPart s t es) :
    ∀ e ∈ es, addressPin e.pin = true := by
  cases h with
  | none => simp
  | sequence addr => exact sequenceEvents_addressPin s.config addr

theorem transactionPart_pins {t : State} {es : List Event} (h : TransactionPart t es) :
    ∀ e ∈ es, addressPin e.pin = false := by
  cases h with
  | none => simp
  | read ls hl => exact sampledEvents_addressPin hl
  | write b => exact writeEvents_addressPin b

theorem orderly_transactionPart {t : State} {es : List Event} (h : TransactionPart t es) {ps : Pins} (hps : Idle ps) :
    orderly ps es = true := by
  cases h with
  | none => simp [orderly, hps.2]
  | read ls => exact orderly_sampledEvents hps
  | write b => exact orderly_writeEvents hps b

/-- A read transaction never drives WE_N. -/
theorem drive_weN_notMem_sampledEvents {ls : List Level} (h : ls.length = 8) (l : Level) :
    .drive .weN l ∉ sampledEvents ls := by
  match ls, h with
  | [l0, l1, l2, l3, l4, l5, l6, l7], _ => simp [sampledEvents, bitLines]

/-- WE_N falls only with an address latched. -/
theorem latched_of_weN_falls {t : State} {es : List Event} (h : TransactionPart t es)
    (hfall : .drive .weN .low ∈ es) : t.la ≠ none := by
  cases h with
  | none => cases hfall
  | read ls hl => exact absurd hfall (drive_weN_notMem_sampledEvents hl _)
  | write b hla => exact hla

theorem idle_of_inv {s : State} (hi : Inv s) : Idle s.pins := by
  simp [Idle, Pins.wire, hi.control.oeN, hi.control.weN]

/-! ### The obligations -/

/-- Settles O43: the step's own events are the ones replayed. -/
theorem traceAccountsForThePins : Obligations.TraceAccountsForThePins := by
  intro s t h
  obtain ⟨address, transaction, hev, -, -⟩ := events_of_step h
  refine ⟨⟨address ++ transaction, hev.trace, hev.pins⟩, fun hs => ?_⟩
  rw [hev.trace, hev.pins, hs, Pins.replay_append resetPins]

/-- Settles O44: the address part spares the enables, so the transaction starts with both of them High. -/
theorem everyStepUsesThePinsInOrder : Obligations.EveryStepUsesThePinsInOrder := by
  intro s t hi h
  obtain ⟨address, transaction, hev, -, -⟩ := events_of_step h
  have haddress := addressPart_pins hev.address
  have hspare : ∀ e ∈ address, sparesEnables e := fun e he => sparesEnables_of_addressPin (haddress e he)
  have hidle := idle_of_inv hi
  refine ⟨address, transaction, hev.trace, ?order, haddress, transactionPart_pins hev.transaction, ?latch,
    latched_of_weN_falls hev.transaction⟩
  case order =>
    exact orderly_append (orderly_of_spares hidle hspare)
      (orderly_transactionPart hev.transaction (idle_replay hidle hspare))
  case latch =>
    cases hev.address with
    | none hla => exact .inl ⟨rfl, hla⟩
    | sequence addr hla => exact .inr ⟨addr, rfl, hla⟩

/-- Settles O45: the step's events are counted with its command. -/
theorem stepMakesTheCommandsNumberOfEvents : Obligations.StepMakesTheCommandsNumberOfEvents := by
  intro s t h
  obtain ⟨address, transaction, hev, hfault, hdone⟩ := events_of_step h
  refine ⟨fun hf => ?_, fun hf => ?_⟩
  · rw [hev.trace, List.eq_nil_of_length_eq_zero (hfault hf), List.append_nil]
  · obtain ⟨w, i, hw, hd, hlen⟩ := hdone hf
    refine ⟨w, i, hw, hd, by rw [hev.trace, List.length_append, hlen], ?_⟩
    cases i <;> simp [eventCount]
end Sys2Proof.Proofs
end

section
/-! PROOFS. The decomposer's laws (section 3 of `40_decomposer.md`) and the segment encoder's lookups and faults
(`41_segment_encoder.md`). -/

namespace Sys2Proof.Proofs

open Sys2Proof.Machine

/-! ### The fields of a packed triple (R68) -/

/-- The digits and the sign stand in the triple's word where SEG.ENCODE's word has its operands. -/
theorem packTriple_fields (t : DigitTriple) :
    (packTriple t).extractLsb' 0 4 = t.ones ∧ (packTriple t).extractLsb' 4 4 = t.tens ∧
    (packTriple t).extractLsb' 8 4 = t.hundreds ∧ signFlag (packTriple t) = t.sign := by
  refine ⟨BitVec.extractLsb'_append_eq_right, ?_, ?_, ?_⟩
  case refine_3 => simp only [signFlag, packTriple, BitVec.getLsbD_append]; simp
  all_goals
    apply BitVec.eq_of_getLsbD_eq
    intro k hk
    rw [BitVec.getLsbD_extractLsb']
    simp only [packTriple, BitVec.getLsbD_append]
    interval_cases k <;> simp

/-- The opcode 5 over a packed triple is the triple's SEG.ENCODE word. -/
theorem encode_segEncode_packTriple (t : DigitTriple) :
    0x50000000#32 ||| packTriple t = encode (.segEncode t.ones t.tens t.hundreds t.sign) := by
  apply BitVec.eq_of_getLsbD_eq
  intro k hk
  simp only [packTriple, encode, BitVec.getLsbD_or, BitVec.getLsbD_append]
  interval_cases k <;> simp

/-- The digits of a packed decomposition add up to the magnitude. -/
theorem packTriple_decompose_sum {m : Nat} (hm : m ≤ 255) (sign : Bool) :
    let r := packTriple (decompose m sign)
    fieldOf r 3 0 + 10 * fieldOf r 7 4 + 100 * fieldOf r 11 8 = m := by
  obtain ⟨hones, htens, hhundreds, -⟩ := packTriple_fields (decompose m sign)
  simp only [fieldOf_eq, hones, htens, hhundreds, decompose_ones, decompose_tens, decompose_hundreds]
  omega

theorem signedMagnitude_eq_natAbs (v : Byte) : signedMagnitude v = v.toInt.natAbs := by
  rw [signedMagnitude, signOf]
  split <;> simp_all <;> omega

theorem signedMagnitude_le (v : Byte) : signedMagnitude v ≤ 128 := by
  have hv := v.isLt
  rw [signedMagnitude_eq]
  split <;> omega

/-- Packing keeps the sign apart: triples with different signs are different words. -/
theorem packTriple_sign_eq {t u : DigitTriple} (h : packTriple t = packTriple u) : t.sign = u.sign := by
  obtain ⟨-, -, -, ht⟩ := packTriple_fields t
  obtain ⟨-, -, -, hu⟩ := packTriple_fields u
  rw [← ht, ← hu, h]

/-! ### SEG.DIGIT and SEG.ENCODE -/

theorem exec_segDigit_legal {d : Digit} (hd : d.toNat < 10) (s : State) : exec (.segDigit d) s =
    .next { s with res := some (zext32 s.config.segTable.digits[d.toNat]), pc := s.pc + 1 } := by
  have harm : exec (.segDigit d) s = execSegDigit d s := rfl
  rw [harm, execSegDigit, digitPattern_legal hd]
  rfl

theorem exec_segDigit_illegal {d : Digit} (hd : 9 < d.toNat) (s : State) : exec (.segDigit d) s =
    .next (s.raise .segIndexOutOfRange (encode (.segDigit d)) (.digit .d d)) := by
  have harm : exec (.segDigit d) s = execSegDigit d s := rfl
  rw [harm, execSegDigit, digitPattern_illegal hd]

theorem exec_segEncode_legal {o t h : Digit} (ho : o.toNat < 10) (ht : t.toNat < 10) (hh : h.toNat < 10) (neg : Bool)
    (s : State) : exec (.segEncode o t h neg) s = .next { s with
      res := some (packPatterns s.config.segTable.digits[o.toNat] s.config.segTable.digits[t.toNat]
        s.config.segTable.digits[h.toNat] (signPattern s.config neg))
      pc := s.pc + 1 } := by
  have harm : exec (.segEncode o t h neg) s = execSegEncode o t h neg s := rfl
  rw [harm, execSegEncode, digitPattern_legal ho, digitPattern_legal ht, digitPattern_legal hh]
  rfl

/-- The fields are checked in the order ones, tens, hundreds (R155). -/
theorem exec_segEncode_illegal (o t h : Digit) (neg : Bool) (s : State) :
    let raised (f : DigitField) (d : Digit) : Host.Outcome State Fault Refusal :=
      .next (s.raise .segIndexOutOfRange (encode (.segEncode o t h neg)) (.digit f d))
    (9 < o.toNat → exec (.segEncode o t h neg) s = raised .ones o) ∧
    (o.toNat < 10 → 9 < t.toNat → exec (.segEncode o t h neg) s = raised .tens t) ∧
    (o.toNat < 10 → t.toNat < 10 → 9 < h.toNat → exec (.segEncode o t h neg) s = raised .hundreds h) := by
  have harm : exec (.segEncode o t h neg) s = execSegEncode o t h neg s := rfl
  rw [harm, execSegEncode]
  refine ⟨fun ho => ?_, fun ho ht => ?_, fun ho ht hh => ?_⟩
  · rw [digitPattern_illegal ho]
  · rw [digitPattern_legal ho, digitPattern_illegal ht]
  · rw [digitPattern_legal ho, digitPattern_legal ht, digitPattern_illegal hh]

/-- Four packed patterns as a number: byte `k` is the pattern of digit space `k` (R69). -/
theorem packPatterns_toNat (p0 p1 p2 p3 : Byte) : (packPatterns p0 p1 p2 p3).toNat =
    p0.toNat + 2 ^ 8 * p1.toNat + 2 ^ 16 * p2.toNat + 2 ^ 24 * p3.toNat := by
  have h0 := p0.isLt
  have h1 := p1.isLt
  have h2 := p2.isLt
  simp only [packPatterns, BitVec.toNat_append]
  rw [← Nat.shiftLeft_add_eq_or_of_lt h0, ← Nat.shiftLeft_add_eq_or_of_lt h1, ← Nat.shiftLeft_add_eq_or_of_lt h2]
  simp only [Nat.shiftLeft_eq]
  omega

theorem zext32_toNat (b : Byte) : (zext32 b).toNat = b.toNat := by
  have hb := b.isLt
  rw [zext32_eq_ofNat, BitVec.toNat_ofNat]
  omega

/-! ### The obligations -/

/-- Settles O15: RES holds the packed triple of the value's magnitude; below 128 the two commands pack one triple, and
from 128 on their signs differ. -/
theorem decomposedDigitsAddUp : Obligations.DecomposedDigitsAddUp := by
  intro v s
  have hv := v.isLt
  obtain ⟨-, -, -, hunsigned⟩ := packTriple_fields (decompose v.toNat false)
  obtain ⟨-, -, -, hsigned⟩ := packTriple_fields (decompose (signedMagnitude v) (signOf v))
  refine ⟨_, _, _, _, exec_decompU v s, rfl, exec_decompS v s, rfl, packTriple_decompose_sum (by omega) false,
    hunsigned, ?_, ?_, ?_⟩
  · rw [packTriple_decompose_sum ((signedMagnitude_le v).trans (by omega)), signedMagnitude_eq_natAbs]
  · rw [hsigned, decompose_sign, signOf, decide_eq_true_eq]
  · constructor
    · intro heq
      have hsign : false = signOf v := packTriple_sign_eq heq
      simpa [signOf_eq] using hsign.symm
    · intro hlow
      have hsign : signOf v = false := by simp [signOf_eq, hlow]
      rw [hsign, signedMagnitude_eq, if_pos hlow]

/-- Settles O16. -/
theorem segDigitLooksUpTheTable : Obligations.SegDigitLooksUpTheTable := by
  intro d s hd
  rw [exec_segDigit_legal hd, zext32_eq_ofNat]

/-- Settles O17. -/
theorem segDigitOutOfRangeFaults : Obligations.SegDigitOutOfRangeFaults := by
  intro d s hd
  rw [exec_segDigit_illegal hd, encode_segDigit]
  rfl

/-- Settles O19. -/
theorem segEncodePacksFourPatterns : Obligations.SegEncodePacksFourPatterns := by
  intro o t h neg s ho ht hh
  rw [exec_segEncode_legal ho ht hh, ← signPattern_toNat, ← packPatterns_toNat, BitVec.ofNat_toNat,
    BitVec.setWidth_eq]

/-- Settles O20. -/
theorem segEncodeRecordsTheFirstBadDigit : Obligations.SegEncodeRecordsTheFirstBadDigit := by
  intro o t h neg s
  obtain ⟨hones, htens, hhundreds⟩ := exec_segEncode_illegal o t h neg s
  rw [encode_segEncode] at hones htens hhundreds
  exact ⟨hones, fun ho => htens (by omega), fun ho ht => hhundreds (by omega) (by omega)⟩

/-- Settles O21: byte `k` of the packed patterns is the pattern that the single lookup zero-extends. -/
theorem segEncodeAgreesWithSingleLookups : Obligations.SegEncodeAgreesWithSingleLookups := by
  intro o t h neg s ho ht hh
  have ho : o.toNat < 10 := by omega
  have ht : t.toNat < 10 := by omega
  have hh : h.toNat < 10 := by omega
  refine ⟨_, _, _, _, _, _, _, _, _, _, exec_segEncode_legal ho ht hh neg s, rfl, exec_segDigit_legal ho s, rfl,
    exec_segDigit_legal ht s, rfl, exec_segDigit_legal hh s, rfl, exec_segSign neg s, rfl, ?_⟩
  simp only [fieldOf, packPatterns_toNat, zext32_toNat]
  have h0 := s.config.segTable.digits[o.toNat].isLt
  have h1 := s.config.segTable.digits[t.toNat].isLt
  have h2 := s.config.segTable.digits[h.toNat].isLt
  have h3 := (signPattern s.config neg).isLt
  omega

/-- A decomposed magnitude, packed, is a SEG.ENCODE word of legal digits. -/
theorem exec_segEncode_decompose (m : Nat) (sign : Bool) (s : State) :
    let r := packTriple (decompose m sign)
    let j := Instr.segEncode (r.extractLsb' 0 4) (r.extractLsb' 4 4) (r.extractLsb' 8 4) (signFlag r)
    decode (0x50000000#32 ||| r) = .legal j ∧ ∃ u, exec j s = .next u ∧ u.fault = s.fault ∧ u.pc = s.pc + 1 := by
  obtain ⟨hones, htens, hhundreds, hsign⟩ := packTriple_fields (decompose m sign)
  simp only [hones, htens, hhundreds, hsign]
  refine ⟨?_, _, exec_segEncode_legal ?_ ?_ ?_ _ s, rfl, rfl⟩
  · rw [encode_segEncode_packTriple, decode_encode_segEncode]
  · rw [decompose_ones]; omega
  · rw [decompose_tens]; omega
  · rw [decompose_hundreds]; omega

/-- Settles O22: both commands leave the packed triple of a decomposed magnitude in RES, whose digits are all legal. -/
theorem decomposedTriplesEncode : Obligations.DecomposedTriplesEncode := by
  rintro v i s (rfl | rfl)
  · obtain ⟨hd, u, hu, hf, hpc⟩ := exec_segEncode_decompose v.toNat false
      { s with res := some (packTriple (decompose v.toNat false)), pc := s.pc + 1 }
    exact ⟨_, _, _, u, exec_decompU v s, rfl, rfl, hd, hu, hf, hpc⟩
  · obtain ⟨hd, u, hu, hf, hpc⟩ := exec_segEncode_decompose (signedMagnitude v) (signOf v)
      { s with res := some (packTriple (decompose (signedMagnitude v) (signOf v))), pc := s.pc + 1 }
    exact ⟨_, _, _, u, exec_decompS v s, rfl, rfl, hd, hu, hf, hpc⟩
end Sys2Proof.Proofs
end

section
/-! PROOFS. Steps, part three: which command a step runs, when a step stops, when a command faults, what a step leaves
unchanged, and how a run ends (section 1 of `10_state.md`, sections 1 and 5 of `60_exceptions.md`). -/

namespace Sys2Proof.Proofs

open Sys2Proof.Machine

/-! ### The step, case by case -/

theorem step_legal {s : State} {w : Word} {i : Instr} (hf : s.fault = none) (hw : fetch s = some w)
    (hd : decode w = .legal i) : step s = exec i (boundary s) := by
  rw [step, hf, hw]
  simp only [hd]

theorem step_illegal {s : State} {w : Word} {k : Illegal} (hf : s.fault = none) (hw : fetch s = some w)
    (hd : decode w = .illegal k) : step s = .next ((boundary s).raise .illegalCommand w .none) := by
  rw [step, hf, hw]
  simp only [hd]

/-- There is no step from a faulted state (R150). -/
theorem step_faulted {s : State} (hf : s.fault ≠ none) : step s = .fault .haltedAfterFault := by
  obtain ⟨r, hr⟩ := Option.ne_none_iff_exists'.mp hf
  rw [step, hr]

/-- Past the end of the sequence there is no command (R169). -/
theorem step_ended {s : State} (hf : s.fault = none) (hpc : s.program.length ≤ s.pc) :
    step s = .refused .commandSequenceEnded := by
  have hw : fetch s = none := List.getElem?_eq_none hpc
  rw [step, hf, hw]

/-- With a command left and no fault there is a next state. -/
theorem exists_step {s : State} (hf : s.fault = none) (hpc : s.pc < s.program.length) : ∃ t, step s = .next t := by
  have hw : fetch s = some s.program[s.pc] := List.getElem?_eq_getElem hpc
  cases hd : decode s.program[s.pc] with
  | illegal k => exact ⟨_, step_illegal hf hw hd⟩
  | legal i =>
    obtain ⟨t, ht, -⟩ := exec_effect i (boundary s)
    exact ⟨t, (step_legal hf hw hd).trans ht⟩

/-! ### What every effect does to `pc`, FAULT, the parameters and the cells -/

/-- From a state without a fault, a command faults exactly on its bad operands. -/
theorem effect_faults_iff {i : Instr} {s t : State} (hf : s.fault = none) (he : Effect i s t) :
    t.fault ≠ none ↔ faultsOn i s := by
  cases he with
  | faulted r _ _ _ _ _ hbad => simp [hbad]
  | result v _ hgood => simp [hf, hgood]
  | write b a hi hla => simp [hi, hf, faultsOn, hla]
  | seq a hi | read hi | get a hi | set a b hi => simp [hi, hf, faultsOn]

theorem effect_pc {i : Instr} {s t : State} (hf : s.fault = none) (he : Effect i s t) :
    t.pc = if t.fault = none then s.pc + 1 else s.pc := by
  cases he <;> simp [hf]

theorem effect_config {i : Instr} {s t : State} (he : Effect i s t) : t.config = s.config := by
  cases he <;> simp

theorem effect_program {i : Instr} {s t : State} (he : Effect i s t) : t.program = s.program := by
  cases he <;> simp

/-- A write transaction changes no cell but the addressed one, which can only become the byte (R136). -/
theorem writeTxn_cell {a : CellAddr} {b : Byte} {s : State} {x : Nat}
    (hx : memCell (writeTxn a b s).mem x ≠ memCell s.mem x) :
    a.toNat = x ∧ memCell (writeTxn a b s).mem x = some b := by
  obtain ⟨m, w, n, h, hm, -⟩ := writeTxn_frame a b s
  rw [h] at hx ⊢
  obtain rfl | rfl := hm
  · by_cases hax : x = a.toNat
    · subst hax
      exact ⟨rfl, memCell_memStore_same _ _ _⟩
    · exact absurd (memCell_memStore_other s.mem b hax) hx
  · exact absurd rfl hx

/-- Only WRITE at LA and SET at its own address change a cell, to their byte. -/
theorem effect_cell {i : Instr} {s t : State} (he : Effect i s t) {x : Nat} (hx : memCell t.mem x ≠ memCell s.mem x) :
    ∃ b, memCell t.mem x = some b ∧ ((i = .write b ∧ s.la.map BitVec.toNat = some x) ∨
      ∃ addr, i = .set addr b ∧ (latchedAddr s.config addr).toNat = x) := by
  cases he with
  | faulted | result => exact absurd rfl hx
  | seq | read | get => exact absurd (by simp) hx
  | write b a hi hla =>
    obtain ⟨rfl, hb⟩ := writeTxn_cell hx
    exact ⟨b, hb, .inl ⟨hi, by simp [hla]⟩⟩
  | set a b hi =>
    obtain ⟨hax, hb⟩ := writeTxn_cell (s := sequenceAddr a s) (by simpa using hx)
    exact ⟨b, hb, .inr ⟨a, hi, hax⟩⟩

/-- What every step does to the parameters, the sequence and `pc`. -/
theorem step_frame {s t : State} (h : step s = .next t) : t.config = s.config ∧ t.program = s.program ∧
    t.pc = if t.fault = none then s.pc + 1 else s.pc := by
  obtain ⟨hf, w, -, ⟨k, -, rfl⟩ | ⟨i, -, he⟩⟩ := step_cases h
  · simp
  · refine ⟨?_, ?_, ?_⟩
    · rw [effect_config he, boundary_config]
    · rw [effect_program he, boundary_program]
    · rw [effect_pc (by simpa using hf) he, boundary_pc]

/-! ### Steps and their outcomes: the obligations -/

/-- Settles O7. -/
theorem stepRunsTheDecodedCommand : Obligations.StepRunsTheDecodedCommand :=
  fun _ _ _ hf hw hd => step_legal hf hw hd

/-- Settles O8: the table word of 32 bits is the word itself. -/
theorem placedWordIsFetched : Obligations.PlacedWordIsFetched := by
  intro s w
  have hword : tableWord 32 w.toNat = w := by
    rw [tableWord, Nat.mod_eq_of_lt w.isLt, BitVec.ofNat_toNat, BitVec.setWidth_eq]
  rw [State.withFetchWord, hword]
  exact placeWord_get s.program s.pc w

/-- Settles O9: a word that breaks its format is not decoded, so the step raises the fault after the boundary. -/
theorem illegalWordRaisesIllegalCommand : Obligations.IllegalWordRaisesIllegalCommand := by
  intro s w hf hw hbad
  rw [step_illegal hf hw ((decode_illegal_iff w _).mpr ⟨hbad, rfl⟩), State.raise]
  simp only [boundary_pc]

/-- Settles O10. -/
theorem stepStopsOnlyAfterFaultOrAtTheEnd : Obligations.StepStopsOnlyAfterFaultOrAtTheEnd := by
  refine fun s => ⟨⟨?_, fun ⟨hf, hpc⟩ => exists_step hf hpc⟩, step_faulted, step_ended⟩
  rintro ⟨t, h⟩
  obtain ⟨hf, w, hw, -⟩ := step_cases h
  exact ⟨hf, fetch_bound hw⟩

/-- Settles O11: the boundary looks for a write cycle of the conservative model, and its draw decides. -/
theorem boundaryMayEndTheWriteCycle : Obligations.BoundaryMayEndTheWriteCycle := by
  refine fun s => ⟨fun hideal => ?_, fun hwip => ?_, fun hcons hwip => ?_⟩
  · exact boundary_of_not_writing (by simp [State.writing, hideal])
  · exact boundary_of_not_writing (by simp [State.writing, hwip])
  · have hwriting : s.writing = true := by simp [State.writing, hcons, hwip]
    by_cases hdraw : Config.draw 1 s.draws = 1#1
    · simp [boundary, hwriting, hdraw, draw]
    · simp [boundary, hwriting, hdraw, draw, hwip]

/-- Settles O46. -/
theorem pcAdvancesByOneUnlessFault : Obligations.PcAdvancesByOneUnlessFault := by
  intro s t h
  obtain ⟨-, -, hpc⟩ := step_frame h
  exact ⟨fun hf => by simp [hpc, hf], fun hf => by simp [hpc, hf]⟩

/-- Settles O47: every command has an effect, and `faultsOn` names the operands on which it is a fault. -/
theorem commandsFaultExactlyWhenTheSpecSays : Obligations.CommandsFaultExactlyWhenTheSpecSays := by
  intro i s
  obtain ⟨t, ht, he⟩ := exec_effect i s
  refine ⟨t, ht, fun hf => ?_⟩
  rw [effect_faults_iff hf he]
  cases i <;> rfl

/-- Settles O48: only an illegal word raises IllegalCommand, and a legal command's record holds its own word. -/
theorem faultsArePrecise : Obligations.FaultsArePrecise := by
  intro s t h hfault
  obtain ⟨hf, w, hw, ⟨k, hd, rfl⟩ | ⟨i, hd, he⟩⟩ := step_cases h
  · obtain ⟨hbad, -⟩ := (decode_illegal_iff w k).mp hd
    exact ⟨_, rfl, by simp, hw, by simp [hbad], by simp, by simp⟩
  · have hgood : wordWellFormed w = true := (wordWellFormed_iff_legal w).mpr ⟨i, hd⟩
    have hword := encodeOfDecodedWord w i hd
    rw [← boundary_fault] at hf
    cases he with
    | faulted r hpc hrw hcode hinfo hla =>
      rw [hword] at hrw
      exact ⟨r, rfl, by simpa using hpc, by rw [hw, hrw], by simp [hrw, hgood, hcode], hinfo, by simpa using hla⟩
    | result | seq | read | write | get | set => exact absurd (by simpa using hf) hfault

/-- Settles O49: the boundary changes no cell, and of the commands only WRITE and SET do. -/
theorem onlyStoresChangeACell : Obligations.OnlyStoresChangeACell := by
  intro s t x h hx
  obtain ⟨-, w, hw, ⟨k, -, rfl⟩ | ⟨i, hd, he⟩⟩ := step_cases h
  · exact absurd (by simp) hx
  · obtain ⟨b, hb, hcase⟩ := effect_cell he (by simpa using hx)
    refine ⟨w, b, hw, hb, ?_⟩
    obtain ⟨rfl, hla⟩ | ⟨addr, rfl, haddr⟩ := hcase
    · exact .inl ⟨hd, by simpa using hla⟩
    · exact .inr ⟨addr, hd, by simpa using haddr⟩

/-- Settles O50. -/
theorem stepsKeepParametersAndSequence : Obligations.StepsKeepParametersAndSequence := by
  intro s t h
  obtain ⟨hconfig, hprogram, -⟩ := step_frame h
  exact ⟨hconfig, hprogram⟩

/-! ### RES is not read -/

theorem sequenceAddr_withRes (addr : LogicalAddr) (s : State) (r : Option Word) :
    sequenceAddr addr { s with res := r } = { sequenceAddr addr s with res := r } := by
  rw [sequenceAddr_spec, sequenceAddr_spec]

/-- READ does the same whatever `pc` and RES are; it overwrites RES. -/
theorem exec_read_ignores (s : State) (n : Nat) (v : Option Word) : exec .read { s with pc := n, res := v } =
    .next { (readTxn s).2.writeRes (zext32 (readTxn s).1) with pc := n + 1 } := by
  rw [exec_read, readTxn_ignores]
  obtain ⟨b, t⟩ := readTxn s
  rfl

theorem exec_read_withRes (s : State) (r : Option Word) : exec .read { s with res := r } = exec .read s :=
  (exec_read_ignores s s.pc r).trans (exec_read_ignores s s.pc s.res).symm

theorem writeTxn_withRes (a : CellAddr) (b : Byte) (s : State) (r : Option Word) :
    writeTxn a b { s with res := r } = { writeTxn a b s with res := r } := by
  have hpc : { writeTxn a b s with pc := s.pc, res := r } = { writeTxn a b s with res := r } := by
    rw [← writeTxn_pc a b s]
  exact (writeTxn_ignores a b s s.pc r).trans hpc

/-- WRITE does the same with another RES, and leaves it. -/
theorem exec_write_withRes (b : Byte) (s : State) (r : Option Word) : ∃ t, exec (.write b) s = .next t ∧
    t.res = s.res ∧ exec (.write b) { s with res := r } = .next { t with res := r } := by
  obtain hla | ⟨a, hla⟩ := Option.eq_none_or_eq_some s.la
  · refine ⟨_, exec_write_unlatched hla b, rfl, ?_⟩
    rw [exec_write_unlatched (s := { s with res := r }) hla]
    rfl
  · refine ⟨_, exec_write_latched hla b, by simp, ?_⟩
    rw [exec_write_latched (s := { s with res := r }) hla, writeTxn_withRes]
    rfl

/-- A lookup does the same with another RES: a result replaces it, a fault leaves it. -/
theorem exec_segDigit_withRes (d : Digit) (s : State) (r : Option Word) : ∃ t, exec (.segDigit d) s = .next t ∧
    ((t.res ≠ none ∧ exec (.segDigit d) { s with res := r } = .next t) ∨
     (t.res = s.res ∧ exec (.segDigit d) { s with res := r } = .next { t with res := r })) := by
  by_cases hd : d.toNat < 10
  · exact ⟨_, exec_segDigit_legal hd s, .inl ⟨by simp, exec_segDigit_legal hd _⟩⟩
  · exact ⟨_, exec_segDigit_illegal (by omega) s, .inr ⟨rfl, exec_segDigit_illegal (by omega) _⟩⟩

theorem exec_segEncode_withRes (o t h : Digit) (neg : Bool) (s : State) (r : Option Word) :
    ∃ u, exec (.segEncode o t h neg) s = .next u ∧
    ((u.res ≠ none ∧ exec (.segEncode o t h neg) { s with res := r } = .next u) ∨
     (u.res = s.res ∧ exec (.segEncode o t h neg) { s with res := r } = .next { u with res := r })) := by
  obtain ⟨hones, htens, hhundreds⟩ := exec_segEncode_illegal o t h neg s
  obtain ⟨hones', htens', hhundreds'⟩ := exec_segEncode_illegal o t h neg { s with res := r }
  by_cases ho : o.toNat < 10
  · by_cases ht : t.toNat < 10
    · by_cases hh : h.toNat < 10
      · exact ⟨_, exec_segEncode_legal ho ht hh neg s, .inl ⟨by simp, exec_segEncode_legal ho ht hh neg _⟩⟩
      · exact ⟨_, hhundreds ho ht (by omega), .inr ⟨rfl, hhundreds' ho ht (by omega)⟩⟩
    · exact ⟨_, htens ho (by omega), .inr ⟨rfl, htens' ho (by omega)⟩⟩
  · exact ⟨_, hones (by omega), .inr ⟨rfl, hones' (by omega)⟩⟩

/-- Settles O51: the sequence, the transactions and the lookups do not see RES. -/
theorem noCommandReadsTheResult : Obligations.NoCommandReadsTheResult := by
  intro i s r
  cases i with
  | decompU v => exact ⟨_, rfl, .inl ⟨by simp, rfl⟩⟩
  | decompS v => exact ⟨_, rfl, .inl ⟨by simp, rfl⟩⟩
  | segDigit d => exact exec_segDigit_withRes d s r
  | segSign neg => exact ⟨_, rfl, .inl ⟨by simp, rfl⟩⟩
  | segEncode o t h neg => exact exec_segEncode_withRes o t h neg s r
  | seq addr => exact ⟨_, exec_seq addr s, .inr ⟨rfl, exec_seq addr _⟩⟩
  | read => exact ⟨_, exec_read s, .inl ⟨by simp, exec_read_withRes s r⟩⟩
  | write b =>
    obtain ⟨t, ht, hres⟩ := exec_write_withRes b s r
    exact ⟨t, ht, .inr hres⟩
  | get addr =>
    refine ⟨_, rfl, .inl ⟨by simp, ?_⟩⟩
    rw [exec_get, sequenceAddr_withRes, exec_read_withRes]
    rfl
  | set addr b =>
    refine ⟨_, exec_set addr b s, .inr ⟨by simp, ?_⟩⟩
    rw [exec_set, sequenceAddr_withRes, writeTxn_withRes]
    rfl

/-! ### Runs -/

/-- A run with no command left has ended. -/
theorem endedWell_of_bound {s : State} (hf : s.fault = none) (hpc : s.pc = s.program.length) : endedWell s = true := by
  simp [endedWell, hf, hpc]

/-- One step more. -/
theorem run_succ {s t : State} (h : step s = .next t) (k : Nat) :
    Sys2Proof.core.run (k + 1) s = Sys2Proof.core.run k t := by
  have hcore : Sys2Proof.core.step s = .next t := h
  simp only [Host.Core.run, hcore]

/-- Settles O52: by induction on the commands left; a step does one of them or ends the run in a fault. -/
theorem everyRunEnds : Obligations.EveryRunEnds := by
  intro s hpc
  induction hleft : s.program.length - s.pc generalizing s with
  | zero =>
    refine ⟨0, s, le_rfl, rfl, ?_⟩
    cases hf : s.fault with
    | none => exact .inl (endedWell_of_bound hf (by omega))
    | some r => exact .inr (by simp [endedInFault, hf])
  | succ n ih =>
    cases hf : s.fault with
    | some r => exact ⟨0, s, Nat.zero_le _, rfl, .inr (by simp [endedInFault, hf])⟩
    | none =>
      obtain ⟨t, ht⟩ := exists_step hf (by omega)
      obtain ⟨-, hprogram, hnext⟩ := step_frame ht
      cases hft : t.fault with
      | some r => exact ⟨1, t, by omega, run_succ ht 0, .inr (by simp [endedInFault, hft])⟩
      | none =>
        rw [hft, if_pos rfl] at hnext
        obtain ⟨k, u, hk, hrun, hend⟩ := ih t (by rw [hprogram]; omega) (by rw [hprogram]; omega)
        exact ⟨k + 1, u, by omega, (run_succ ht k).trans hrun, hend⟩
end Sys2Proof.Proofs
end

section
/-! PROOFS. Pins: a line's level, the bus, the pin primitives, the pins after reset and the boot order (sections 2, 6
and 8 of `10_state.md`, section 3 of `60_exceptions.md`, section 2 of `70_reset_and_hazards.md`). -/

namespace Sys2Proof.Proofs

open Sys2Proof.Machine

/-! ### A line's level (R163) -/

/-- The level a one-bit draw stands for. -/
theorem levelOf_bit (x : BitVec 1) : levelOf (x.getLsbD 0) = if x = 1#1 then .high else .low := by
  revert x
  decide

theorem floatingLevel_eq (s : State) : floatingLevel s =
    (if Config.draw 1 s.draws = 1#1 then .high else .low, { s with draws := s.draws + 1 }) := by
  rw [floatingLevel, draw_value, levelOf_bit]
  rfl

/-- The level that a driver puts on line `i`, where one does: the line itself as an Output, else an enabled EEPROM. -/
def knownLevel (i : Fin 8) (r : Byte) (s : State) : Option Level :=
  if (s.pins.pin (.d i)).mode = some .output then (s.pins.pin (.d i)).drive
  else if s.pins.wire .oeN = some .low ∧ s.pins.wire .weN = some .high then
    some (if r.getLsbD i then .high else .low)
  else none

/-- A line with a known level shows it; any other floats. -/
theorem lineLevel_eq (i : Fin 8) (r : Byte) (s : State) :
    lineLevel i r s = ((knownLevel i r s).elim (floatingLevel s) fun l => (l, s)) := by
  rw [lineLevel, knownLevel]
  split
  · cases (s.pins.pin (.d i)).drive <;> rfl
  · split <;> rfl

/-! ### The data bus as a whole (R27) -/

/-- Where all eight lines have one mode, it is the bus's direction. -/
theorem busdir_of_modes {s : State} {m : PinMode} (h : ∀ i : Fin 8, (s.pins.pin (.d i)).mode = some m) :
    s.busdir = some m := by
  have hdata : ∀ i : Fin 8, s.pins.data[i].mode = some m := h
  have hall : (bitLines.all fun i => s.pins.data[i].mode == s.pins.data[(0 : Fin 8)].mode) = true := by
    rw [List.all_eq_true]
    intro i _
    rw [hdata i, hdata 0, beq_self_eq_true]
  exact (if_pos hall).trans (hdata 0)

theorem pinsAfterRead_mode (ps : Pins) (i : Fin 8) : ((pinsAfterRead ps).pin (.d i)).mode = some .input := by
  simp [Pins.pin, pinsAfterRead]

theorem pinsAfterWrite_mode (ps : Pins) (b : Byte) (i : Fin 8) :
    ((pinsAfterWrite ps b).pin (.d i)).mode = some .output := by
  simp [Pins.pin, pinsAfterWrite]

/-! ### The obligations -/

/-- Settles O37: the three cases of a line, and a draw where none of them gives a level. -/
theorem pinReadShowsTheLineLevel : Obligations.PinReadShowsTheLineLevel := by
  intro i r s l v
  have hl : l = knownLevel i r s := rfl
  rw [pinRead, lineLevel_eq, ← hl]
  cases hlevel : l with
  | some l' => simp [v, hlevel, emit]
  | none => simp [v, hlevel, emit, floatingLevel_eq]

/-- Settles O38. -/
theorem pinPrimitivesChangeOnePin : Obligations.PinPrimitivesChangeOnePin := by
  intro p q m l s
  refine ⟨?_, ?_, rfl, rfl⟩
  · by_cases hq : q = p
    · simp [pinMode, hq]
    · simp [pinMode, hq, Pins.setPin_pin_other _ _ hq]
  · by_cases hq : q = p
    · simp [pinWrite, hq]
    · simp [pinWrite, hq, Pins.setPin_pin_other _ _ hq]

/-- Settles O39. -/
theorem resetLeavesTheSpecsValues : Obligations.ResetLeavesTheSpecsValues := by
  intro c s
  have hdata : ∀ i : Fin 8, s.pins.data[i] = ⟨some .input, none⟩ := by
    intro i
    simp [s, State.resetWith, resetPins]
  have hbus : s.busdir = some .input := busdir_of_modes fun i => congrArg PinState.mode (hdata i)
  exact ⟨rfl, rfl, rfl, rfl, rfl, rfl, rfl, rfl, rfl, hdata, hbus, rfl, rfl, rfl, rfl, rfl, fun _ => rfl, rfl, rfl,
    rfl, rfl⟩

theorem replay_bootEvents : powerUpPins.replay bootEvents = resetPins := by decide

/-- At no point of the boot order is WE_N or OE_N Low: each is driven High before it is an Output (R173). -/
theorem boot_enables_notLow : ∀ k ≤ bootEvents.length,
    (powerUpPins.replay (bootEvents.take k)).wire .weN ≠ some .low ∧
    (powerUpPins.replay (bootEvents.take k)).wire .oeN ≠ some .low := by decide

/-- Settles O40: taking more events than there are is taking the whole boot order. -/
theorem bootEstablishesTheResetPins : Obligations.BootEstablishesTheResetPins := by
  refine fun c => ⟨?_, fun k => ?_⟩
  · rw [State.boot, State.powerUp, replay_bootEvents]
    rfl
  · obtain hk | hk := Nat.le_total k bootEvents.length
    · exact boot_enables_notLow k hk
    · rw [List.take_of_length_le hk]
      simpa using boot_enables_notLow bootEvents.length le_rfl

end Sys2Proof.Proofs
end

section
/-! PROOFS. The laws of the sequencer under all parameters (`42_address_sequencer.md`), of the memory (`20_memory.md`)
and of the memory port (`43_memory_port.md`). -/

namespace Sys2Proof.Proofs

open Sys2Proof.Machine

/-! ### Addresses that agree in their low 13 bits (R46) -/

/-- A sequence sees its address only through the mask. -/
theorem sequenceAddr_congr {a a' : LogicalAddr} (h : maskedAddr a = maskedAddr a') (s : State) :
    sequenceAddr a s = sequenceAddr a' s := by
  simp only [sequenceAddr, h]

theorem latchedAddr_congr {a a' : LogicalAddr} (h : maskedAddr a = maskedAddr a') (c : Config) :
    latchedAddr c a = latchedAddr c a' := by
  simp only [latchedAddr, h]

theorem maskedAddr_discards (a : LogicalAddr) (x : BitVec 3) :
    maskedAddr ((a &&& 0x1FFF#16) ||| (x.zeroExtend 16 <<< 13)) = maskedAddr a := by
  apply BitVec.eq_of_getLsbD_eq
  intro k hk
  rw [maskedAddr_bit, maskedAddr_bit, BitVec.getLsbD_or, BitVec.getLsbD_and, BitVec.getLsbD_shiftLeft]
  interval_cases k <;> simp

theorem maskedAddr_eq_iff (a a' : LogicalAddr) : maskedAddr a = maskedAddr a' ↔
    a.toNat % 0x2000 = a'.toNat % 0x2000 := by
  rw [← BitVec.toNat_inj, maskedAddr_toNat, maskedAddr_toNat]

/-! ### The transactions after an advance of `pc` -/

theorem readTxn_advance (s : State) : readTxn s.advance = ((readTxn s).1, (readTxn s).2.advance) := by
  have h : readTxn s.advance = _ := readTxn_ignores s (s.pc + 1) s.res
  rw [h, State.advance, readTxn_pc, ← readTxn_res s]

theorem writeTxn_advance (a : CellAddr) (b : Byte) (s : State) :
    writeTxn a b s.advance = (writeTxn a b s).advance := by
  have h : writeTxn a b s.advance = _ := writeTxn_ignores a b s (s.pc + 1) s.res
  rw [h, State.advance, writeTxn_pc, ← writeTxn_res a b s]

/-! ### Two steps of the ideal model -/

/-- In the ideal model a step with a legal word is its command alone (R137, R138). -/
theorem step_legal_ideal {s : State} {i : Instr} (hideal : s.config.writeCycleModel = .ideal) (hf : s.fault = none)
    (hw : s.program[s.pc]? = some (encode i)) : step s = exec i s := by
  have hnone : boundary s = s := boundary_of_not_writing (by simp [State.writing, hideal])
  rw [step_legal hf hw (decodeOfEncodedCommand i), hnone]

/-- A written cell is what a read transaction there gets, in the ideal model (R48, R133). -/
theorem byteAt_written {s : State} {a : CellAddr} {b : Byte} (hideal : s.config.writeCycleModel = .ideal)
    (hcell : memCell s.mem a.toNat = some b) : byteAt s (some a) = b := by
  simp [byteAt, hideal, hcell]

/-- GET between commands in the ideal model returns the byte of a written cell (R140). -/
theorem exec_get_written {s : State} {addr : LogicalAddr} {b : Byte} (hi : Inv s)
    (hideal : s.config.writeCycleModel = .ideal)
    (hcell : memCell s.mem (latchedAddr s.config addr).toNat = some b) :
    ∃ u, exec (.get addr) s = .next u ∧ u.res = some (BitVec.ofNat 32 b.toNat) ∧ u.fault = s.fault ∧
      u.pc = s.pc + 1 := by
  have hseq := inv_sequenceAddr hi addr
  have hoe : (sequenceAddr addr s).pins.oeN.mode = some .output := congrArg PinState.mode hseq.control.oeN
  refine ⟨_, (exec_get addr s).trans (exec_read_atRest hoe hseq.control.weN), ?_, by simp, by simp⟩
  simp [byteAt_written hideal hcell]

/-! ### The obligations -/

/-- Settles O24: the sequence's specification under any parameters; its events spare the other pins. -/
theorem seqLatchesThroughTheWiring : Obligations.SeqLatchesThroughTheWiring := by
  intro addr s
  refine ⟨_, lowByte (maskedAddr addr), highByte (maskedAddr addr), exec_seq addr s, ?_, ?_, rfl, rfl, rfl, ?_, ?_, ?_,
    ?_, ?_, rfl⟩
  · rw [lowByte_toNat, maskedAddr_toNat]
    omega
  · rw [highByte_toNat, maskedAddr_toNat]
  · rw [replay_sequenceEvents]
  · rw [replay_sequenceEvents]
  · rw [replay_sequenceEvents]
  · rw [replay_sequenceEvents]
  · rw [List.length_append, sequenceEvents_length]

/-- Settles O25: the two addresses have one masked address. -/
theorem addressBitsAbove12AreDiscarded : Obligations.AddressBitsAbove12AreDiscarded := by
  intro a x b s a'
  have hmask : maskedAddr a = maskedAddr a' := (maskedAddr_discards a x).symm
  have hseq := sequenceAddr_congr hmask s
  refine ⟨?_, ?_, ?_⟩
  · exact congrArg (fun t => Host.Outcome.next t.advance) hseq
  · rw [exec_get, exec_get, hseq]
  · rw [exec_set, exec_set, hseq, latchedAddr_congr hmask]

/-- Settles O26: a sequence overwrites the registers and LA. -/
theorem sequencingLeavesNoResidue : Obligations.SequencingLeavesNoResidue := by
  intro addr b s q r q' r' l u
  have hseq : sequenceAddr addr u = sequenceAddr addr s := by rw [sequenceAddr_spec, sequenceAddr_spec]
  refine ⟨?_, ?_, ?_⟩
  · exact congrArg (fun t => Host.Outcome.next t.advance) hseq
  · rw [exec_get, exec_get, hseq]
  · rw [exec_set, exec_set, hseq]

/-- Settles O28: the read transaction's specification in any pin state. -/
theorem readChangesNoCell : Obligations.ReadChangesNoCell := by
  intro s
  obtain ⟨ls, n, hl, h⟩ := readTxn_spec s
  rw [replay_sampledEvents _ hl] at h
  refine ⟨_, (readTxn s).1, exec_read s, ?_, ?_, ?_, ?_⟩
  · rw [zext32_eq_ofNat]
    rfl
  · exact busdir_of_modes fun i => by simpa using pinsAfterRead_mode s.pins i
  · simp [h, sampledEvents_length hl]
  · rw [h]
    rfl

/-- Settles O30. -/
theorem storeChangesExactlyOneCell : Obligations.StoreChangesExactlyOneCell := by
  refine fun m a v => ⟨fun x => ?_, memWf_memStore v⟩
  split
  · next hx => rw [hx, memCell_memStore_same]
  · next hx => exact memCell_memStore_other m v hx

/-- Settles O31: both lists rise. -/
theorem canonicalMemoriesReadingAlikeAreEqual : Obligations.CanonicalMemoriesReadingAlikeAreEqual := by
  intro m n hm hn h
  simp only [memWf, Bool.and_eq_true] at hm hn
  exact rising_ext hm.1 hn.1 h

/-- Settles O34: the transactions do not see `pc`, so GET and SET are SEQ's sequence and then the transaction. -/
theorem getAndSetCombineSeqWithTheTransaction : Obligations.GetAndSetCombineSeqWithTheTransaction := by
  intro addr b s
  have hla : (sequenceAddr addr s).advance.la = some (latchedAddr s.config addr) := by simp
  have hwrite := exec_write_latched hla b
  have hread := exec_read (sequenceAddr addr s).advance
  rw [writeTxn_advance] at hwrite
  rw [readTxn_advance] at hread
  refine ⟨_, _, _, rfl, hread, hwrite, ?_, ?_, ?_, ?_, ?_⟩
  · rw [exec_get, exec_read]
    simp [State.advance, State.writeRes]
  · rw [exec_set]
    simp [State.advance]
  · simp
  · simp
  · simp

/-- Settles O35: SET stores at the latched address, the next state is a boundary state again, and GET latches the same
address. -/
theorem setThenGetReturnsTheByte : Obligations.SetThenGetReturnsTheByte := by
  intro s a a' b hi hf hideal haddr hset hget
  have hmask := (maskedAddr_eq_iff a a').mpr haddr
  have hstep := (step_legal_ideal hideal hf hset).trans (exec_set a b s)
  have hi' := everyStepKeepsTheInvariant _ _ hi hstep
  generalize ht : (writeTxn (latchedAddr s.config a) b (sequenceAddr a s)).advance = t at hstep hi'
  have hconfig : t.config = s.config := by simp [← ht]
  have hprogram : t.program = s.program := by simp [← ht]
  have hpc : t.pc = s.pc + 1 := by simp [← ht]
  have hfault : t.fault = none := by simpa [← ht] using hf
  have hmem : t.mem = memStore s.mem (latchedAddr s.config a).toNat b := by
    rw [← ht, writeTxn_ideal (by simpa using hideal)]
    simp
  have hcell : memCell t.mem (latchedAddr t.config a').toNat = some b := by
    rw [hmem, hconfig, ← latchedAddr_congr hmask, memCell_memStore_same]
  obtain ⟨u, hu, hres, huf, hupc⟩ := exec_get_written hi' (by rwa [hconfig]) hcell
  have hstep' : step t = .next u :=
    (step_legal_ideal (by rwa [hconfig]) hfault (by rwa [hprogram, hpc])).trans hu
  exact ⟨t, u, hstep, hstep', hres, huf.trans hfault, by omega⟩

/-- Settles O36. -/
theorem busDirectionAfterEachCommand : Obligations.BusDirectionAfterEachCommand := by
  intro i s t h
  cases effect_of_exec h with
  | faulted r _ _ _ _ _ hbad =>
    cases i with
    | write b => exact fun hla => absurd hbad hla
    | read | get addr | set addr b => exact hbad.elim
    | _ => rfl
  | result v hev =>
    cases i with
    | write b | read | get addr | set addr b => cases hev
    | _ => rfl
  | seq a hi =>
    subst hi
    simp [replay_sequenceEvents]
  | read hi =>
    subst hi
    exact busdir_of_modes fun i => by simpa using pinsAfterRead_mode s.pins i
  | write b a hi =>
    subst hi
    exact fun _ => ⟨busdir_of_modes fun i => by simpa using pinsAfterWrite_mode s.pins b i,
      by simpa using busByte_pinsAfterWrite s.pins b⟩
  | get a hi =>
    subst hi
    exact busdir_of_modes fun i => by simpa using pinsAfterRead_mode _ i
  | set a b hi =>
    subst hi
    exact ⟨busdir_of_modes fun i => by simpa using pinsAfterWrite_mode _ b i,
      by simpa using busByte_pinsAfterWrite _ b⟩

end Sys2Proof.Proofs
end

section
/-! PROOFS. Parameters: the default table (section 1 of `41_segment_encoder.md`) and the image layout (section 5 of
`20_memory.md`). -/

namespace Sys2Proof.Proofs

open Sys2Proof.Machine

/-- The image entry's cell: the place above the value; the sign flag is in a discarded bit (C1). -/
theorem maskedAddr_imageAddr {c : Config} (h : c.imageSignBit = 15) (sf : Bool) (space : BitVec 2) (value : Byte) :
    maskedAddr (imageAddr c sf space value) = 0#3 ++ space ++ value := by
  apply BitVec.eq_of_getLsbD_eq
  intro k hk
  simp only [maskedAddr_bit, imageAddr, h, BitVec.getLsbD_or, BitVec.getLsbD_shiftLeft, BitVec.getLsbD_append]
  interval_cases k <;> simp

/-- Settles O53: the default parameters are a literal, and the check is run on it. -/
theorem defaultTableIsTheShapes : Obligations.DefaultTableIsTheShapes := by
  unfold Obligations.DefaultTableIsTheShapes
  decide

/-- Settles O54. -/
theorem imageEntriesAlias : Obligations.ImageEntriesAlias := by
  intro c sf space value h
  have hvalue := value.isLt
  rw [maskedAddr_imageAddr h, BitVec.toNat_append, BitVec.toNat_append, ← Nat.shiftLeft_add_eq_or_of_lt hvalue]
  simp only [BitVec.toNat_ofNat, Nat.shiftLeft_eq, Nat.zero_mod, Nat.zero_mul, Nat.zero_or]
  omega
end Sys2Proof.Proofs
end
